-- ==== Sys2Proof/Word.lean ====
section
/-!
DEFINITION. The words of the block: 64-bit register values, payload bytes, the two byte orders, the
eight-byte payload and the reading of a binary64 pattern (`00_scope.md` section 6, `10_state.md` R11,
`41_converter.md` R90).
-/

namespace Sys2Proof

/-- A register value or the data of a host transaction (D2): 64 bits. -/
abbrev Word := BitVec 64

/-- One payload byte, or one byte-wide field of a command word. -/
abbrev Byte := BitVec 8

/-- The two byte orders of a codec access (`40_bitfield.md` R70): little, byte 0 is least significant; big,
byte 0 is most significant. -/
inductive ByteOrder where
  | little
  | big
  deriving DecidableEq, Repr

/-- The payload, the document's "8-byte buffer": `b0` is `B[0]` and `b7` is `B[7]` (`10_state.md` R11). -/
structure Payload where
  b0 : Byte
  b1 : Byte
  b2 : Byte
  b3 : Byte
  b4 : Byte
  b5 : Byte
  b6 : Byte
  b7 : Byte
  deriving DecidableEq, Repr

/-- What a binary64 pattern stands for (`41_converter.md` R90). Every finite binary64 is a whole multiple
of 2^-1074, so a finite value is its sign and its magnitude COUNTED IN UNITS OF 2^-1074; the sign is kept
for zero too. -/
inductive FloatValue where
  | nan
  | infinite (neg : Bool)
  | finite (neg : Bool) (mag : Nat)
  deriving DecidableEq, Repr

end Sys2Proof
end

