-- ==== Sys2Proof/Config.lean ====
section
/-!
DEFINITION. What the spec leaves open or tells a model to hold as configuration: the draw of NAN_BITS
(`41_converter.md` R99) and the record of the four binary64 operations (R91, D16). The open parameters
REG_BASE, REG_STRIDE, EFF_FLAG_MASK and RAND are arguments where they are used (`00_scope.md` section 5).
-/

namespace Sys2Proof

/-- FREE VALUE (log entry 2). The n-th draw of NAN_BITS: a sign and one less than the fraction of a NaN
pattern. The second part runs over 0 to 2^52 - 2, so that `fraction = second + 1` runs over every non-zero
52-bit fraction and nothing else (`41_converter.md` R99: exponent all ones, fraction not zero). No body:
nothing can be proved of which pattern it is. -/
opaque Config.freeNan : Nat → Bool × Fin 4503599627370495

/-- The four arithmetic operations of the converter as a configuration record (`41_converter.md` R91: "A
model takes the four operations as a configuration record"). Its decided value is `Machine.ieee`. -/
structure Config.Numerics where
  /-- `fmul(a, b)` on binary64 patterns. -/
  fmul : Word → Word → Word
  /-- `fadd(a, b)`. -/
  fadd : Word → Word → Word
  /-- `fsub(a, b)`. -/
  fsub : Word → Word → Word
  /-- `fdiv(a, b)`. -/
  fdiv : Word → Word → Word

end Sys2Proof
end

