-- ==== Sys2Proof/Syntax.lean ====
section
/-!
DEFINITION. The command set: one constructor per row of spec/opcode_table.json (`30_encoding.md` R52).
-/

namespace Sys2Proof

/-- The four commands. A constructor of format F carries the three operand bytes of the command word AS
THEY STAND (`30_encoding.md` R51): `start` and `len` may hold any byte, since a word that matches the row
is checked for a legal layout only when it is executed (R53, R56). The other operands are registers that
the command's rule names and the word does not encode. -/
inductive Instr where
  /-- EXTRACT `start, len, ord` (`40_bitfield.md` R76). -/
  | extract (start len : Byte) (ord : ByteOrder)
  /-- INJECT `start, len, ord` (`40_bitfield.md` R77). -/
  | inject (start len : Byte) (ord : ByteOrder)
  /-- TOPHYS (`41_converter.md` R97). -/
  | tophys
  /-- TORAW (`41_converter.md` R98). -/
  | toraw
  deriving DecidableEq, Repr

end Sys2Proof
end

