-- ==== Sys2Proof/WellFormed.lean ====
section
/-!
DEFINITION. Which commands have a legal layout (`30_encoding.md` R53). A command whose layout is not legal
is still a command of the opcode table: executing it raises LayoutViolation (`60_exceptions.md` R142).
-/

namespace Sys2Proof

/-- The three checks of R53 on a format F command: `1 <= len`, `len <= 64`, `start + len <= 64`, the sum in
unbounded integers (`40_bitfield.md` R78). A format Z command has no layout. -/
def Instr.wellFormed : Instr → Bool
  | .extract start len _ => decide (1 ≤ len.toNat) && decide (len.toNat ≤ 64) && decide (start.toNat + len.toNat ≤ 64)
  | .inject start len _ => decide (1 ≤ len.toNat) && decide (len.toNat ≤ 64) && decide (start.toNat + len.toNat ≤ 64)
  | .tophys => true
  | .toraw => true

/-- `Instr.wellFormed` as a proposition. -/
def Instr.WellFormed (i : Instr) : Prop := i.wellFormed = true
  deriving Decidable

end Sys2Proof
end

