-- ==== Sys2Proof/Decode.lean ====
section
/-!
DEFINITION. The decoder of command words (`30_encoding.md` R50 to R55), total, refusing by name, and the
encoder (R57), both written from the same field positions.
-/

namespace Sys2Proof

/-- `d[7:0]`, the operation byte (R50). -/
def opField (d : Word) : Byte := d.extractLsb' 0 8

/-- `d[15:8]`, the byte order field (R50). -/
def ordField (d : Word) : Byte := d.extractLsb' 8 8

/-- `d[23:16]`, the start bit (R50). -/
def startField (d : Word) : Byte := d.extractLsb' 16 8

/-- `d[31:24]`, the length (R50). -/
def lenField (d : Word) : Byte := d.extractLsb' 24 8

/-- `d[63:32]`, which must be zero in every command (R50). -/
def upperField (d : Word) : BitVec 32 := d.extractLsb' 32 32

/-- The byte order a matching format F word selects: bit 8 of the word, the one bit of `ord` that the mask
leaves free (R52), 0 little and 1 big (R51). -/
def byteOrderField (d : Word) : ByteOrder := if d.getLsbD 8 then .big else .little

/-- The mask of the format F rows (R52). -/
def maskF : Word := 0xFFFFFFFF0000FEFF#64

/-- The mask of the format Z rows (R52). -/
def maskZ : Word := 0xFFFFFFFFFFFFFFFF#64

/-- "A word `d` selects a row when `d & mask = match`" (R52). -/
def selects (mask pattern d : Word) : Bool := d &&& mask == pattern

/-- Why a word is no command (R55), one name for each of R55's four cases. All four raise IllegalCommand. -/
inductive Rejection where
  /-- `d[63:32]` is not zero. -/
  | upperHalf
  /-- `op` is not in 1 to 4. -/
  | operation
  /-- A format F word with `ord >= 2`. -/
  | byteOrder
  /-- A format Z word with a non-zero `len`, `start` or `ord`. -/
  | operands
  deriving DecidableEq, Repr

/-- The name under which a word that selects no row is rejected. -/
def rejectionOf (d : Word) : Rejection :=
  if upperField d ≠ 0#32 then .upperHalf
  else if opField d = 1#8 ∨ opField d = 2#8 then .byteOrder
  else if opField d = 3#8 ∨ opField d = 4#8 then .operands
  else .operation

/-- The decoder (R52): the command whose row the word selects, or the name of its rejection. It does not
check the layout of a format F word; R56 does that after the match. -/
def decode (d : Word) : Except Rejection Instr :=
  if selects maskF 1#64 d then .ok (.extract (startField d) (lenField d) (byteOrderField d))
  else if selects maskF 2#64 d then .ok (.inject (startField d) (lenField d) (byteOrderField d))
  else if selects maskZ 3#64 d then .ok .tophys
  else if selects maskZ 4#64 d then .ok .toraw
  else .error (rejectionOf d)

/-- The `ord` byte of a byte order (R51). -/
def ordByte : ByteOrder → Byte
  | .little => 0#8
  | .big => 1#8

/-- The command word `0x00000000LLSSOOPP` (R50). -/
def commandWord (op start len ord : Byte) : Word := 0#32 ++ len ++ start ++ ord ++ op

/-- The encoder (R57): the data of the `WR(5, d)` that stands for a command. -/
def encode : Instr → Word
  | .extract start len ord => commandWord 1#8 start len (ordByte ord)
  | .inject start len ord => commandWord 2#8 start len (ordByte ord)
  | .tophys => commandWord 3#8 0#8 0#8 0#8
  | .toraw => commandWord 4#8 0#8 0#8 0#8

/-- The command my decoder reads from a word whose bits are numbered as spec/opcode_table.json numbers
them. A command is ONE 64-bit word (R50), the data of a write, so there is no order of words or bytes to
lay out; a value wider than 64 bits is no transaction's data (`70_reset_and_hazards.md` R169). -/
def decodeTableWord (nbits w : Nat) : Option Instr :=
  if w % 2 ^ nbits < 2 ^ 64 then (decode (BitVec.ofNat 64 (w % 2 ^ nbits))).toOption else none

end Sys2Proof
end

