-- ==== Sys2Proof/Machine/State.lean ====
section
/-!
DEFINITION. The state of one block (`10_state.md` R10 to R17, R21) as plain data, with the host's side of
the port (R18) beside it, and the reasons a step could stop for (there are none: `20_memory.md` R31).
-/

namespace Sys2Proof.Machine

/-- The eight register indices of the host port (`10_state.md` R10), by name. -/
inductive Reg where
  | buf
  | raw
  | phys
  | factor
  | offset
  | cmd
  | status
  | finfo
  deriving DecidableEq, Repr

/-- What reaches the block from outside: the two transactions of the port (`20_memory.md` R31) and reset
(`70_reset_and_hazards.md` R160). An index outside 0 to 7, or data wider than 64 bits, cannot be expressed. -/
inductive HostEvent where
  /-- `WR(i, d)`. -/
  | wr (r : Reg) (d : Word)
  /-- `RD(i)`. -/
  | rd (r : Reg)
  /-- Reset, an event from outside the host port, between two transactions. -/
  | reset
  deriving DecidableEq, Repr

/-- The values of `STATUS.CAUSE` (`60_exceptions.md` R140): codes 0, 1, 2; codes 3 to 255 never appear
(`93_implementation_defined.md` V5). -/
inductive Cause where
  | none
  | illegalCommand
  | layoutViolation
  deriving DecidableEq, Repr

/-- Why the machine could stop with a fault: NO REASON EXISTS, so the type is empty. Every transaction
completes (`20_memory.md` R31, `70_reset_and_hazards.md` R168); the spec's two faults are recorded in
STATUS and FINFO and are next states (`60_exceptions.md` R144). Safe: nothing stops. -/
inductive Fault where
  deriving DecidableEq, Repr

/-- Why the model could have no meaning for a command. -/
inductive Refusal where
  /-- Raised by an arm of `exec` whose instruction has no meaning yet; no arm raises it. Safe. -/
  | notModelled (mnemonic : String)
  deriving DecidableEq, Repr

/-- The state of one block and of the host's side of its port. The first eight fields are the whole
architectural state (R10; CMD has no storage, R15); the last three are the model's own (log entries 1, 2). -/
structure State where
  /-- BUF, index 0: the payload bytes `B[0]` to `B[7]` (R11). -/
  buf : Payload
  /-- RAW, index 1: the raw signal value, unsigned (R12). -/
  raw : Word
  /-- PHYS, index 2: a binary64 pattern (R13). -/
  phys : Word
  /-- FACTOR, index 3: a binary64 pattern (R14). -/
  factor : Word
  /-- OFFSET, index 4: a binary64 pattern (R14). -/
  offset : Word
  /-- `STATUS[0] = FAULT` (R16). -/
  fault : Bool
  /-- `STATUS[15:8] = CAUSE` (R16). -/
  cause : Cause
  /-- FINFO, index 7: the data of the command write that set FAULT (R17). -/
  finfo : Word
  /-- The model's own: the events the block has not yet performed, oldest first (`20_memory.md` R38). -/
  port : List HostEvent
  /-- The model's own: the values `RD` has returned, oldest first (`20_memory.md` R32). -/
  replies : List Word
  /-- The model's own: how many draws of NAN_BITS have been taken (`41_converter.md` R99). -/
  nanDraws : Nat
  deriving DecidableEq, Repr

/-- The block right after reset (`10_state.md` R21): all zero but FACTOR, which is 1.0. The host has issued
nothing yet and nothing has been read (log entry 1). -/
def State.reset : State where
  buf := ⟨0#8, 0#8, 0#8, 0#8, 0#8, 0#8, 0#8, 0#8⟩
  raw := 0#64
  phys := 0#64
  factor := 0x3FF0000000000000#64
  offset := 0#64
  fault := false
  cause := .none
  finfo := 0#64
  port := []
  replies := []
  nanDraws := 0

end Sys2Proof.Machine
end

