-- ==== Sys2Proof/Machine/Flags.lean ====
section
/-!
DEFINITION. The flags: STATUS.FAULT and STATUS.CAUSE are the only ones (`10_state.md` section 4). No command
computes a condition code; what the word the host reads looks like is R16 and `20_memory.md` R32.
-/

namespace Sys2Proof.Machine

/-- The code of a cause (`60_exceptions.md` R140). -/
def causeCode : Cause → Byte
  | .none => 0#8
  | .illegalCommand => 1#8
  | .layoutViolation => 2#8

/-- `STATUS[0]`. -/
def faultBit (fault : Bool) : BitVec 1 := if fault then 1#1 else 0#1

/-- The word `RD(6)` returns: 48 zero bits, CAUSE, 7 zero bits, FAULT (`20_memory.md` R32). -/
def statusWord (fault : Bool) (cause : Cause) : Word := 0#48 ++ causeCode cause ++ 0#7 ++ faultBit fault

/-- Whether a write to STATUS clears the fault record: only bit 0 of its data matters (`20_memory.md` R33). -/
def clearsFault (d : Word) : Bool := d.getLsbD 0

end Sys2Proof.Machine
end

