-- ==== Sys2Proof/Machine/Operands.lean ====
section
/-!
DEFINITION. The operand forms of the codec: the payload under the two byte orders, the field mask, the
layout condition, and the pure functions `extract` and `inject` (`40_bitfield.md` R70 to R75).
-/

namespace Sys2Proof.Machine

/-- `B[i]`, payload byte `i` (`10_state.md` R11). -/
def payloadByte (p : Payload) (i : Fin 8) : Byte :=
  match i with
  | 0 => p.b0
  | 1 => p.b1
  | 2 => p.b2
  | 3 => p.b3
  | 4 => p.b4
  | 5 => p.b5
  | 6 => p.b6
  | 7 => p.b7

/-- The assembled word (R70): little-endian `sum of B[i] * 2^(8*i)`, big-endian `sum of B[i] * 2^(8*(7-i))`. -/
def assemble (p : Payload) (ord : ByteOrder) : Word :=
  match ord with
  | .little => p.b7 ++ p.b6 ++ p.b5 ++ p.b4 ++ p.b3 ++ p.b2 ++ p.b1 ++ p.b0
  | .big => p.b0 ++ p.b1 ++ p.b2 ++ p.b3 ++ p.b4 ++ p.b5 ++ p.b6 ++ p.b7

/-- `W[8*i+7 : 8*i]`, byte `i` of a word counted from its least significant end. -/
def wordByte (w : Word) (i : Nat) : Byte := w.extractLsb' (8 * i) 8

/-- The inverse of `assemble` for the same byte order (R71). -/
def serialize (w : Word) (ord : ByteOrder) : Payload :=
  match ord with
  | .little => ⟨wordByte w 0, wordByte w 1, wordByte w 2, wordByte w 3, wordByte w 4, wordByte w 5, wordByte w 6, wordByte w 7⟩
  | .big => ⟨wordByte w 7, wordByte w 6, wordByte w 5, wordByte w 4, wordByte w 3, wordByte w 2, wordByte w 1, wordByte w 0⟩

/-- The host's 64-bit view of BUF: `BUF[8*i+7 : 8*i] = B[i]`, fixed (`10_state.md` R11, `20_memory.md` R34). -/
def packBuf (p : Payload) : Word :=
  p.b7 ++ p.b6 ++ p.b5 ++ p.b4 ++ p.b3 ++ p.b2 ++ p.b1 ++ p.b0

/-- The payload a host write of BUF stores: `B[k] <- d[8*k+7 : 8*k]` (`20_memory.md` R33). -/
def unpackBuf (d : Word) : Payload :=
  ⟨wordByte d 0, wordByte d 1, wordByte d 2, wordByte d 3, wordByte d 4, wordByte d 5, wordByte d 6, wordByte d 7⟩

/-- `bswap64(v)`, the eight bytes of `v` in reverse order (`00_scope.md` section 6). -/
def bswap64 (v : Word) : Word :=
  wordByte v 0 ++ wordByte v 1 ++ wordByte v 2 ++ wordByte v 3 ++ wordByte v 4 ++ wordByte v 5 ++ wordByte v 6 ++ wordByte v 7

/-- `mask(len) = 2^len - 1`, computed in unbounded integers, so that length 64 gives all ones (R72). -/
def mask (len : Nat) : Word := BitVec.ofNat 64 (2 ^ len - 1)

/-- The layout condition (`30_encoding.md` R53), the sum in unbounded integers (`40_bitfield.md` R78). -/
def fieldFits (start len : Nat) : Prop := 1 ≤ len ∧ len ≤ 64 ∧ start + len ≤ 64
  deriving Decidable

/-- `(W >> start) & mask(len)` (R73). -/
def fieldOf (w : Word) (start len : Nat) : Word := (w >>> start) &&& mask len

/-- `(v & mask(len)) << start`, the bits INJECT merges (R74). -/
def fieldBits (v : Word) (start len : Nat) : Word := (v &&& mask len) <<< start

/-- `extract(Bs, start, len, ord)` (R73). It has no value outside the layout condition (R75). -/
def extract (p : Payload) (start len : Nat) (ord : ByteOrder) : Option Word :=
  if fieldFits start len then some (fieldOf (assemble p ord) start len) else none

/-- `inject(Bs, start, len, ord, v)` (R74), an OR merge that never clears the field
(`70_reset_and_hazards.md` R163). It has no value outside the layout condition (R75). -/
def inject (p : Payload) (start len : Nat) (ord : ByteOrder) (v : Word) : Option Payload :=
  if fieldFits start len then some (serialize (assemble p ord ||| fieldBits v start len) ord) else none

end Sys2Proof.Machine
end

