-- ==== Sys2Proof/Machine/Ops.lean ====
section
/-!
DEFINITION. The named operations over the registers: the access to each, the host's reads and writes of
storage, TAKING A FAULT and clearing it, the gate every command passes, reset, and the two payload accesses.
-/

namespace Sys2Proof.Machine

/-! ## Register indices -/

/-- The index of a register (`10_state.md` R10). -/
def Reg.index : Reg → Fin 8
  | .buf => 0
  | .raw => 1
  | .phys => 2
  | .factor => 3
  | .offset => 4
  | .cmd => 5
  | .status => 6
  | .finfo => 7

/-- The register with an index (`10_state.md` R10). -/
def Reg.ofIndex (i : Fin 8) : Reg :=
  match i with
  | 0 => .buf
  | 1 => .raw
  | 2 => .phys
  | 3 => .factor
  | 4 => .offset
  | 5 => .cmd
  | 6 => .status
  | 7 => .finfo

/-- Where a register appears on a platform bus whose REG_BASE and REG_STRIDE are given (`20_memory.md` R39).
Nothing of the model depends on it. -/
def Reg.busAddress (base stride : Nat) (r : Reg) : Nat := base + r.index.val * stride

/-! ## One update per field -/

def State.setBuf (s : State) (p : Payload) : State := { s with buf := p }
def State.setRaw (s : State) (v : Word) : State := { s with raw := v }
def State.setPhys (s : State) (v : Word) : State := { s with phys := v }
def State.setFactor (s : State) (v : Word) : State := { s with factor := v }
def State.setOffset (s : State) (v : Word) : State := { s with offset := v }

/-- The fault record as a whole: FAULT, CAUSE and FINFO (`10_state.md` R16, R17). -/
def State.setRecord (s : State) (fault : Bool) (cause : Cause) (finfo : Word) : State :=
  { s with fault := fault, cause := cause, finfo := finfo }

/-- The host's side: what is still to be performed. -/
def State.setPort (s : State) (es : List HostEvent) : State := { s with port := es }

/-- The host's side: one more value returned by `RD`. -/
def State.pushReply (s : State) (v : Word) : State := { s with replies := s.replies ++ [v] }

/-- One draw of NAN_BITS has been taken (`41_converter.md` R99). -/
def State.takeNanDraw (s : State) : State := { s with nanDraws := s.nanDraws + 1 }

/-! ## The payload (`20_memory.md` R37) -/

/-- `MemRead(0, 8)`: all eight payload bytes. -/
def State.memRead (s : State) : Payload := s.buf

/-- `MemWrite(0, 8, v)`: all eight payload bytes. -/
def State.memWrite (s : State) (v : Payload) : State := s.setBuf v

/-! ## Faults -/

/-- `raise F(d)` (`60_exceptions.md` R144): FAULT, CAUSE and FINFO are written and nothing else changes;
control goes nowhere. -/
def raiseFault (c : Cause) (d : Word) (s : State) : State := s.setRecord true c d

/-- A write to CMD that is refused: discarded while a fault is recorded (R146, step 1 of `30_encoding.md`
R56), else the fault is taken. -/
def refuseCommand (c : Cause) (d : Word) (s : State) : State :=
  if s.fault then s else raiseFault c d s

/-- The return from a fault (R147): the record is cleared, nothing is restored. -/
def clearFault (s : State) : State := s.setRecord false .none 0#64

/-- A write to STATUS (`20_memory.md` R33): bit 0 set clears the record, all other bits are ignored. -/
def writeStatus (d : Word) (s : State) : State := if clearsFault d then clearFault s else s

/-- Every command runs through this gate (`30_encoding.md` R56, steps 1, 3 and 4), `d` being the data of its
write: discarded while a fault is recorded; LayoutViolation where the command has no result; else its result. -/
def runCommand (d : Word) (result : Option State) (s : State) : Host.Outcome State Fault Refusal :=
  if s.fault then .next s
  else
    match result with
    | some t => .next t
    | none => .next (raiseFault .layoutViolation d s)

/-! ## Host access to storage -/

/-- The value `RD` returns (`20_memory.md` R32). -/
def State.readReg (s : State) : Reg → Word
  | .buf => packBuf s.buf
  | .raw => s.raw
  | .phys => s.phys
  | .factor => s.factor
  | .offset => s.offset
  | .cmd => 0#64
  | .status => statusWord s.fault s.cause
  | .finfo => s.finfo

/-- What a write to a register stores (`20_memory.md` R33), all but the command that a write to CMD presents,
which `presentCommand` performs: CMD itself has no storage (`10_state.md` R15), FINFO is read only (R17). -/
def State.writeReg (s : State) (r : Reg) (d : Word) : State :=
  match r with
  | .buf => s.setBuf (unpackBuf d)
  | .raw => s.setRaw d
  | .phys => s.setPhys d
  | .factor => s.setFactor d
  | .offset => s.setOffset d
  | .cmd => s
  | .status => writeStatus d s
  | .finfo => s

/-! ## Reset -/

/-- Reset (`70_reset_and_hazards.md` R160): every register to its reset value and nothing else. The host's
side of the port, and the count of draws taken, are no registers of the block. -/
def resetRegisters (s : State) : State :=
  { s with
    buf := State.reset.buf
    raw := State.reset.raw
    phys := State.reset.phys
    factor := State.reset.factor
    offset := State.reset.offset
    fault := State.reset.fault
    cause := State.reset.cause
    finfo := State.reset.finfo }

end Sys2Proof.Machine
end

