-- ==== Sys2Proof/Machine/Codec.lean ====
section
/-!
DEFINITION. The bit-field commands EXTRACT and INJECT (`40_bitfield.md` R76, R77).
-/

namespace Sys2Proof.Machine

/-- EXTRACT (R76): `RAW <- extract(MemRead(0, 8), start, len, ord)`; RAW only. LayoutViolation where `extract`
has no value; discarded while a fault is recorded. -/
def execExtract (start len : Byte) (ord : ByteOrder) (s : State) : Host.Outcome State Fault Refusal :=
  runCommand (encode (.extract start len ord))
    ((extract s.memRead start.toNat len.toNat ord).map s.setRaw) s

/-- INJECT (R77): `MemWrite(0, 8, inject(MemRead(0, 8), start, len, ord, RAW))`; BUF only, RAW keeps its full
value. LayoutViolation where `inject` has no value; discarded while a fault is recorded. -/
def execInject (start len : Byte) (ord : ByteOrder) (s : State) : Host.Outcome State Fault Refusal :=
  runCommand (encode (.inject start len ord))
    ((inject s.memRead start.toNat len.toNat ord s.raw).map s.memWrite) s

end Sys2Proof.Machine
end

