-- ==== Sys2Proof/Machine/Float.lean ====
section
/-!
DEFINITION. binary64 arithmetic (`41_converter.md` R90 to R93, R99), exact and then rounded once: finite values
are whole numbers of units of 2^-1074, so sums are integer sums, and a product or quotient is a ratio of two
whole numbers that `roundMag` rounds to nearest, ties to even. A large constant stands on the LEFT of a product, so
that a definitional check on open terms does not count it down. Marked PRESUMED by the spec itself (G1 to G4).
-/

namespace Sys2Proof.Machine

/-- The number 1 in units of 2^-1074. -/
def unitOne : Nat := 2 ^ 1074

/-- Bit 63 (R90). -/
def signOf (x : Word) : Bool := x.getLsbD 63

/-- Bits 62:52 (R90). -/
def exponentOf (x : Word) : Nat := (x.extractLsb' 52 11).toNat

/-- Bits 51:0 (R90). -/
def fractionOf (x : Word) : Nat := (x.extractLsb' 0 52).toNat

/-- What a pattern stands for (R90): exponent `0x7FF` an infinity or a NaN, exponent 0 a zero or a subnormal
`fraction * 2^-1074`, else `(2^52 + fraction) * 2^(exponent - 1)` units. -/
def unpack (x : Word) : FloatValue :=
  if exponentOf x = 0x7FF then
    if fractionOf x = 0 then .infinite (signOf x) else .nan
  else if exponentOf x = 0 then .finite (signOf x) (fractionOf x)
  else .finite (signOf x) ((2 ^ 52 + fractionOf x) * 2 ^ (exponentOf x - 1))

/-- A pattern from its sign and its lower 63 bits. -/
def withSign (neg : Bool) (magBits : Nat) : Word :=
  (if neg then 1#1 else 0#1) ++ BitVec.ofNat 63 magBits

/-- The lower 63 bits of an infinity. -/
def infMag : Nat := 0x7FF * 2 ^ 52

/-- An infinity. -/
def infBits (neg : Bool) : Word := withSign neg infMag

/-- A zero. -/
def zeroBits (neg : Bool) : Word := withSign neg 0

/-- The whole number nearest to `n / d`, ties to even. -/
def roundHalfEven (n d : Nat) : Nat :=
  let q := n / d
  let r := n % d
  if d < 2 * r ∨ (2 * r = d ∧ q % 2 = 1) then q + 1 else q

/-- By how many binary places the last place of a binary64 near `n / d` units lies above 2^-1074: none for a
subnormal, else so many that 53 bits are left. -/
def ulpShift (n d : Nat) : Nat := Nat.log2 (n / d) - 52

/-- The lower 63 bits of the binary64 nearest to the non-negative number `n / d` units, ties to even
(R91): the significand `k` is a whole number of last places, and `2^52 * shift + k` puts exponent and fraction
in place, with the carry of a significand that rounds up to 2^53 and with gradual underflow. Above the largest
finite binary64 it is an infinity. -/
def roundMag (n d : Nat) : Nat :=
  min (2 ^ 52 * ulpShift n d + roundHalfEven n (d * 2 ^ ulpShift n d)) infMag

/-- A signed exact result, rounded once. -/
def roundBits (neg : Bool) (n d : Nat) : Word := withSign neg (roundMag n d)

/-- A magnitude with its sign as an integer. -/
def signedMag (neg : Bool) (mag : Nat) : Int := if neg then -(mag : Int) else (mag : Int)

/-- `fmul(a, b)` (R91); `nan` is the pattern of a NaN it produces (R99). -/
def fmul (nan a b : Word) : Word :=
  match unpack a, unpack b with
  | .nan, _ => nan
  | _, .nan => nan
  | .infinite s, .infinite t => infBits (s ^^ t)
  | .infinite s, .finite t m => if m = 0 then nan else infBits (s ^^ t)
  | .finite s m, .infinite t => if m = 0 then nan else infBits (s ^^ t)
  | .finite s m, .finite t n => roundBits (s ^^ t) (m * n) unitOne

/-- The sum of two finite values: the exact sum rounded once; an exact zero is +0 unless both are negative
(so `x - x = +0`, R91). -/
def addFinite (s : Bool) (m : Nat) (t : Bool) (n : Nat) : Word :=
  let sum := signedMag s m + signedMag t n
  if sum = 0 then zeroBits (s && t) else roundBits (decide (sum < 0)) sum.natAbs 1

/-- `fadd(a, b)` (R91). -/
def fadd (nan a b : Word) : Word :=
  match unpack a, unpack b with
  | .nan, _ => nan
  | _, .nan => nan
  | .infinite s, .infinite t => if s = t then infBits s else nan
  | .infinite s, .finite _ _ => infBits s
  | .finite _ _, .infinite t => infBits t
  | .finite s m, .finite t n => addFinite s m t n

/-- `fsub(a, b)` (R91). -/
def fsub (nan a b : Word) : Word :=
  match unpack a, unpack b with
  | .nan, _ => nan
  | _, .nan => nan
  | .infinite s, .infinite t => if s = t then nan else infBits s
  | .infinite s, .finite _ _ => infBits s
  | .finite _ _, .infinite t => infBits (!t)
  | .finite s m, .finite t n => addFinite s m (!t) n

/-- `fdiv(a, b)` (R91): a finite non-zero number over a zero is an infinity. -/
def fdiv (nan a b : Word) : Word :=
  match unpack a, unpack b with
  | .nan, _ => nan
  | _, .nan => nan
  | .infinite _, .infinite _ => nan
  | .infinite s, .finite t _ => infBits (s ^^ t)
  | .finite s _, .infinite t => zeroBits (s ^^ t)
  | .finite s m, .finite t n =>
    if n = 0 then (if m = 0 then nan else infBits (s ^^ t)) else roundBits (s ^^ t) (unitOne * m) n

/-- The decided value of the configuration record (R91, D16), with `nan` the pattern of every NaN that an
operation produces. -/
def ieee (nan : Word) : Config.Numerics where
  fmul := fmul nan
  fadd := fadd nan
  fsub := fsub nan
  fdiv := fdiv nan

/-- `u2f(r)`, the document's `raw as f64` (R92). -/
def u2f (r : Word) : Word := roundBits false (unitOne * r.toNat) 1

/-- `f2u(x)`, the document's `as u64` (R93): truncation toward zero, saturating at both ends, a NaN gives 0. -/
def f2u (x : Word) : Word :=
  match unpack x with
  | .nan => 0#64
  | .infinite neg => if neg then 0#64 else BitVec.allOnes 64
  | .finite neg mag =>
    if neg then 0#64
    else if 2 ^ 64 * unitOne ≤ mag then BitVec.allOnes 64
    else BitVec.ofNat 64 (mag / unitOne)

/-- The n-th draw of NAN_BITS (R99): the free value's sign, the exponent all ones, a fraction that is not zero. -/
def nanBits (n : Nat) : Word :=
  withSign (Config.freeNan n).1 (infMag + ((Config.freeNan n).2.val + 1))

/-- Whether a pattern is a NaN (R90). -/
def isNaN (x : Word) : Bool := exponentOf x = 0x7FF && fractionOf x ≠ 0

/-- The order of two values that are no NaN, `a <= b` (IEEE comparison; false if either is a NaN). -/
def fle (a b : Word) : Bool :=
  match unpack a, unpack b with
  | .nan, _ => false
  | _, .nan => false
  | .infinite s, .infinite t => s || !t
  | .infinite s, .finite _ _ => s
  | .finite _ _, .infinite t => !t
  | .finite s m, .finite t n => decide (signedMag s m ≤ signedMag t n)

/-- The binary64 equality: +0 = -0, and a NaN equals nothing (`43_host_sequences.md` R118). -/
def feq (a b : Word) : Bool := fle a b && fle b a

/-- The binary64 nearest to the decimal or ratio `n / d` with a sign, the meaning of a literal such as
`f64(0.1)` (`00_scope.md` section 6). -/
def floatLiteral (neg : Bool) (n d : Nat) : Word := roundBits neg (unitOne * n) d

end Sys2Proof.Machine
end

