-- ==== Sys2Proof/Machine/Converter.lean ====
section
/-!
DEFINITION. The converter: `to_physical` and `to_raw` over the configuration record of the four operations
(`41_converter.md` R94, R95), and the commands TOPHYS and TORAW (R97, R98).
-/

namespace Sys2Proof.Machine

/-- `to_physical(r, f, o) = fadd(fmul(u2f(r), f), o)` (R94): two roundings, no clamping (R96). -/
def toPhysical (N : Config.Numerics) (r f o : Word) : Word := N.fadd (N.fmul (u2f r) f) o

/-- `to_raw(p, f, o) = f2u(fdiv(fsub(p, o), f))` (R95): two roundings, then truncation, no clamping (R96). -/
def toRaw (N : Config.Numerics) (p f o : Word) : Word := f2u (N.fdiv (N.fsub p o) f)

/-- The numerics a command computes with: the decided operations (D16) with the next draw of NAN_BITS as the
pattern of a NaN they produce (R99). -/
def State.numerics (s : State) : Config.Numerics := ieee (nanBits s.nanDraws)

/-- TOPHYS (R97): `PHYS <- to_physical(RAW, FACTOR, OFFSET)`; PHYS only. The draw it may have used is spent. -/
def execTophys (s : State) : Host.Outcome State Fault Refusal :=
  runCommand (encode .tophys)
    (some (s.setPhys (toPhysical s.numerics s.raw s.factor s.offset)).takeNanDraw) s

/-- TORAW (R98): `RAW <- to_raw(PHYS, FACTOR, OFFSET)`; RAW only. A NaN is consumed by `f2u`, so no draw
becomes visible and none is spent (R99). -/
def execToraw (s : State) : Host.Outcome State Fault Refusal :=
  runCommand (encode .toraw) (some (s.setRaw (toRaw s.numerics s.phys s.factor s.offset))) s

end Sys2Proof.Machine
end

