-- ==== Sys2Proof/Machine/Dispatch.lean ====
section
/-!
DEFINITION. Which meaning each command has: one arm per constructor of Instr.
-/

namespace Sys2Proof.Machine

def exec (i : Instr) (s : State) : Host.Outcome State Fault Refusal :=
  match i with
  | .extract start len ord => Sys2Proof.Machine.execExtract start len ord s
  | .inject start len ord => Sys2Proof.Machine.execInject start len ord s
  | .tophys => Sys2Proof.Machine.execTophys s
  | .toraw => Sys2Proof.Machine.execToraw s

end Sys2Proof.Machine
end

