-- ==== Sys2Proof/Machine/Port.lean ====
section
/-!
DEFINITION. The host port: what each event from outside does to the block (`20_memory.md` R31 to R33, R38,
`30_encoding.md` R56, `70_reset_and_hazards.md` R160), a run of events, and several blocks.
-/

namespace Sys2Proof.Machine

/-- A write to CMD presents its data as a command (`30_encoding.md` R56). A word that is no command raises
IllegalCommand, a command is executed by its own rule; both are discarded while a fault is recorded. -/
def presentCommand (d : Word) (s : State) : Host.Outcome State Fault Refusal :=
  match decode d with
  | .ok i => exec i s
  | .error _ => .next (refuseCommand .illegalCommand d s)

/-- One event, performed completely (`20_memory.md` R38). -/
def performEvent (e : HostEvent) (s : State) : Host.Outcome State Fault Refusal :=
  match e with
  | .rd r => .next (s.pushReply (s.readReg r))
  | .reset => .next (resetRegisters s)
  | .wr r d =>
    match r with
    | .cmd => presentCommand d s
    | .buf | .raw | .phys | .factor | .offset | .status | .finfo => .next (s.writeReg r d)

/-- The oldest event at the port is taken off and performed. With none there the block is idle, which changes
nothing (`60_exceptions.md` section 9). -/
def nextEvent (s : State) : Host.Outcome State Fault Refusal :=
  match s.port with
  | [] => .next s
  | e :: rest => performEvent e (s.setPort rest)

/-- A run: a finite list of events, performed in order (`10_state.md` R18, `70_reset_and_hazards.md` section 6). -/
def performAll : List HostEvent → State → Host.Outcome State Fault Refusal
  | [], s => .next s
  | e :: es, s =>
    match performEvent e s with
    | .next t => performAll es t
    | .fault r => .fault r
    | .refused r => .refused r

/-- Several blocks (`60_exceptions.md` R152): an event at block `k` acts on block `k` alone. An index with no
block changes nothing. -/
def performOn (k : Nat) (e : HostEvent) (blocks : List State) : Host.Outcome (List State) Fault Refusal :=
  match blocks[k]? with
  | none => .next blocks
  | some s =>
    match performEvent e s with
    | .next t => .next (blocks.set k t)
    | .fault r => .fault r
    | .refused r => .refused r

/-- The state in which a command word `w` is the next thing the block takes from its port: the very next step
performs `WR(5, w)`. The block fetches nothing (`10_state.md` R18), so this stands for the host issuing that
transaction (log entry 1). -/
def placeCommand (s : State) (w : Word) : State := s.setPort (.wr .cmd w :: s.port)

/-- The state with the command whose bits are `w`, numbered as the opcode table numbers them, placed. DESIGN CHOICE
(log entry 12): a value wider than 64 bits is no transaction's data (`70_reset_and_hazards.md` R169), so nothing is
placed for it, as `decodeTableWord` answers none for it. -/
def placeTableWord (s : State) (nbits w : Nat) : State :=
  if w % 2 ^ nbits < 2 ^ 64 then placeCommand s (BitVec.ofNat 64 (w % 2 ^ nbits)) else s

end Sys2Proof.Machine
end

