-- ==== Sys2Proof/Machine/Step.lean ====
section
/-!
DEFINITION. One step of the machine: one event at the host port, performed completely (`20_memory.md` R38,
`70_reset_and_hazards.md` R168).
-/

namespace Sys2Proof.Machine

/-- One step. -/
def step (s : State) : Host.Outcome State Fault Refusal := nextEvent s

/-- The state with a command word as the next event of the port, so that the next step runs it; a value wider than 64
bits places nothing (log entry 12). -/
def State.withFetchWord (s : State) (nbits w : Nat) : State :=
  placeTableWord s nbits w

end Sys2Proof.Machine
end

