-- ==== Sys2Proof/Machine/Assembler.lean ====
section
/-!
DEFINITION. The assembler notation and its pseudo-operations (`30_encoding.md` R57, R58): a line of text is
parsed to one line of the notation, which expands to the host transactions it stands for.
-/

namespace Sys2Proof.Machine

/-- One line of a program (R57), a pseudo-operation of R58 among them. -/
inductive AsmLine where
  /-- `WR <reg>, <value>`. -/
  | wr (r : Reg) (d : Word)
  /-- `RD <reg>`. -/
  | rd (r : Reg)
  /-- `EXTRACT`, `INJECT`, `TOPHYS`, `TORAW`. -/
  | command (i : Instr)
  /-- `CLRBUF`. -/
  | clrbuf
  /-- `CLRF`. -/
  | clrf
  /-- `SCALE <factor>, <offset>`, the two binary64 patterns. -/
  | scale (factor offset : Word)
  /-- `DECSIG <start>, <len>, <LE|BE>`. -/
  | decsig (start len : Byte) (ord : ByteOrder)
  /-- `ENCSIG <start>, <len>, <LE|BE>`. -/
  | encsig (start len : Byte) (ord : ByteOrder)
  deriving DecidableEq, Repr

/-- The transaction a command stands for (R57). -/
def commandEvent (i : Instr) : HostEvent := .wr .cmd (encode i)

/-- "A pseudo-operation is exactly its expansion" (R58). -/
def expandLine : AsmLine → List HostEvent
  | .wr r d => [.wr r d]
  | .rd r => [.rd r]
  | .command i => [commandEvent i]
  | .clrbuf => [.wr .buf 0#64]
  | .clrf => [.wr .status 1#64]
  | .scale f o => [.wr .factor f, .wr .offset o]
  | .decsig start len ord => [commandEvent (.extract start len ord), commandEvent .tophys]
  | .encsig start len ord => [commandEvent .toraw, commandEvent (.inject start len ord)]

/-- A program's lines, top to bottom (R57). -/
def expandProgram (ls : List AsmLine) : List HostEvent := ls.flatMap expandLine

/-! ## The text of a line. Its exact grammar is read from the listings of R57 and R58 (log entry 7). -/

/-- The pieces of a text between the occurrences of a character. -/
def splitAtChar (c : Char) : List Char → List (List Char)
  | [] => [[]]
  | x :: xs =>
    if x = c then [] :: splitAtChar c xs
    else
      match splitAtChar c xs with
      | [] => [[x]]
      | h :: t => (x :: h) :: t

/-- A text without the blanks at its two ends. -/
def trimBlanks (cs : List Char) : List Char :=
  ((cs.dropWhile Char.isWhitespace).reverse.dropWhile Char.isWhitespace).reverse

/-- The value of a digit, either case above nine. -/
def digitValue (c : Char) : Option Nat :=
  if '0' ≤ c ∧ c ≤ '9' then some (c.toNat - '0'.toNat)
  else if 'a' ≤ c ∧ c ≤ 'f' then some (c.toNat - 'a'.toNat + 10)
  else if 'A' ≤ c ∧ c ≤ 'F' then some (c.toNat - 'A'.toNat + 10)
  else none

/-- A row of digits in a base, read after the value `acc`. -/
def digitsValue (base : Nat) : Nat → List Char → Option Nat
  | acc, [] => some acc
  | acc, c :: cs =>
    match digitValue c with
    | some v => if v < base then digitsValue base (acc * base + v) cs else none
    | none => none

/-- A decimal value, or a hexadecimal one after `0x`. -/
def parseNat (cs : List Char) : Option Nat :=
  match cs with
  | [] => none
  | '0' :: 'x' :: c :: rest => digitsValue 16 0 (c :: rest)
  | c :: rest => digitsValue 10 0 (c :: rest)

/-- The digits of a decimal literal without its sign, as the nearest binary64. -/
def parseUnsignedFloat (neg : Bool) (cs : List Char) : Option Word :=
  match splitAtChar '.' cs with
  | [c :: whole] => (digitsValue 10 0 (c :: whole)).map fun n => floatLiteral neg n 1
  | [c :: whole, f :: frac] =>
    (digitsValue 10 0 (c :: whole ++ f :: frac)).map fun n => floatLiteral neg n (10 ^ (f :: frac).length)
  | _ => none

/-- A decimal literal such as `-100.0`, the binary64 nearest to it (`00_scope.md` section 6). -/
def parseFloat (cs : List Char) : Option Word :=
  match cs with
  | '-' :: rest => parseUnsignedFloat true rest
  | rest => parseUnsignedFloat false rest

/-- A value: decimal, `0x`, or `f64(...)`; it has to fit 64 bits. -/
def parseValue (cs : List Char) : Option Word :=
  match cs with
  | 'f' :: '6' :: '4' :: '(' :: rest =>
    match rest.reverse with
    | ')' :: inner => parseFloat (trimBlanks inner.reverse)
    | _ => none
  | _ => (parseNat cs).bind fun n => if n < 2 ^ 64 then some (BitVec.ofNat 64 n) else none

/-- A byte-wide operand of a command. -/
def parseByte (cs : List Char) : Option Byte :=
  (parseNat cs).bind fun n => if n < 256 then some (BitVec.ofNat 8 n) else none

/-- A register name. -/
def regName : Reg → List Char
  | .buf => ['B', 'U', 'F']
  | .raw => ['R', 'A', 'W']
  | .phys => ['P', 'H', 'Y', 'S']
  | .factor => ['F', 'A', 'C', 'T', 'O', 'R']
  | .offset => ['O', 'F', 'F', 'S', 'E', 'T']
  | .cmd => ['C', 'M', 'D']
  | .status => ['S', 'T', 'A', 'T', 'U', 'S']
  | .finfo => ['F', 'I', 'N', 'F', 'O']

/-- A register name or index (R57). -/
def parseReg (cs : List Char) : Option Reg :=
  match [Reg.buf, .raw, .phys, .factor, .offset, .cmd, .status, .finfo].find? (fun r => regName r == cs) with
  | some r => some r
  | none => (parseNat cs).bind fun n => if h : n < 8 then some (Reg.ofIndex ⟨n, h⟩) else none

/-- `LE` or `BE` (R57). -/
def parseOrder (cs : List Char) : Option ByteOrder :=
  if cs = ['L', 'E'] then some .little else if cs = ['B', 'E'] then some .big else none

/-- The operands `<start>, <len>, <LE|BE>`. -/
def parseField (ops : List (List Char)) : Option (Byte × Byte × ByteOrder) :=
  match ops with
  | [start, len, ord] =>
    (parseByte start).bind fun st => (parseByte len).bind fun ln => (parseOrder ord).map fun o => (st, ln, o)
  | _ => none

/-- A text up to the first `->` in it: in a listing the value an `RD` returned stands after `->` (R57). -/
def beforeArrow : List Char → List Char
  | [] => []
  | [c] => [c]
  | c :: c' :: cs => if c = '-' ∧ c' = '>' then [] else c :: beforeArrow (c' :: cs)

/-- The mnemonics of R57 and R58, and the line each makes of its operands. DESIGN CHOICE (log entry 7): a listing's
`-> <value>` after an `RD` is taken as the record of a run, no part of the program, and dropped unread; after any
other mnemonic it is no program text. -/
def parseMnemonic (mn : String) (ops : List (List Char)) : Option AsmLine :=
  if mn = "WR" then
    match ops with
    | [r, v] => (parseReg r).bind fun r => (parseValue v).map fun d => .wr r d
    | _ => none
  else if mn = "RD" then
    match ops with
    | [r] => (parseReg (trimBlanks (beforeArrow r))).map .rd
    | _ => none
  else if mn = "SCALE" then
    match ops with
    | [f, o] => (parseFloat f).bind fun f => (parseFloat o).map fun o => .scale f o
    | _ => none
  else if mn = "EXTRACT" then (parseField ops).map fun (st, ln, o) => .command (.extract st ln o)
  else if mn = "INJECT" then (parseField ops).map fun (st, ln, o) => .command (.inject st ln o)
  else if mn = "DECSIG" then (parseField ops).map fun (st, ln, o) => .decsig st ln o
  else if mn = "ENCSIG" then (parseField ops).map fun (st, ln, o) => .encsig st ln o
  else if ops ≠ [] then none
  else if mn = "TOPHYS" then some (.command .tophys)
  else if mn = "TORAW" then some (.command .toraw)
  else if mn = "CLRBUF" then some .clrbuf
  else if mn = "CLRF" then some .clrf
  else none

/-- One line of text, without its comment and the blanks around it. -/
def lineText (cs : List Char) : List Char := trimBlanks (cs.takeWhile (· ≠ ';'))

/-- One line of text: a mnemonic, then its operands between commas. -/
def parseLine (cs : List Char) : Option AsmLine :=
  let text := lineText cs
  let operands := trimBlanks (text.dropWhile (!·.isWhitespace))
  parseMnemonic (String.ofList (text.takeWhile (!·.isWhitespace)))
    (if operands = [] then [] else (splitAtChar ',' operands).map trimBlanks)

/-- A program's text: its lines in order, the empty ones left out; no program where some line is none. -/
def parseProgram (cs : List Char) : Option (List AsmLine) :=
  ((splitAtChar '\n' cs).filter (fun l => lineText l ≠ [])).mapM parseLine

end Sys2Proof.Machine
end

