-- ==== Sys2Proof/Machine/Layout.lean ====
section
/-!
DEFINITION. Host level, not part of the block (`00_scope.md` R2): the layout model, a frame, the check at load,
and the transactions that encode and decode one signal (`43_host_sequences.md` R110 to R116).
-/

namespace Sys2Proof.Machine

/-- SignalLayout (R110). -/
structure SignalLayout where
  name : String
  start : Nat
  length : Nat
  order : ByteOrder
  factor : Word
  offset : Word
  minimum : Word
  maximum : Word
  deriving DecidableEq, Repr

/-- MessageLayout (R111): the signals in insertion order. -/
structure MessageLayout where
  id : BitVec 32
  size : Nat
  transmitter : String
  signals : List SignalLayout
  deriving DecidableEq, Repr

/-- Frame (R112). -/
structure Frame where
  id : BitVec 32
  extended : Bool
  remote : Bool
  error : Bool
  payload : List Byte
  deriving DecidableEq, Repr

/-- Why a layout is rejected when the layout model is loaded (R114, `93_implementation_defined.md` V10). -/
inductive LoadError where
  /-- The field does not lie in the 64-bit window (R110, R114). -/
  | layoutViolation (signal : String)
  /-- `minimum <= maximum` fails, a NaN bound among the ways (R118). -/
  | rangeViolation (signal : String)
  deriving DecidableEq, Repr

/-- Why a host-level call gives no result; none of them is a fault of the block. -/
inductive HostError where
  /-- Message selection from an empty candidate set (D28): the spec leaves it undefined, the model refuses the call. -/
  | noCandidate
  /-- The generator met a signal whose `minimum <= maximum` fails, in a layout that never passed the check at load:
  the spec gives no result for it and has a model refuse it (V10, N19). -/
  | rangeViolation
  /-- No layout matches the frame's id (R125). -/
  | unknownMessageId
  /-- The decoder met a layout of more than 8 bytes (R124, D27). -/
  | unsupportedMessageSize
  /-- The block stopped; it never does (`20_memory.md` R31). -/
  | blockStopped
  deriving DecidableEq, Repr

/-- What the generator reports (R118, R119); no format is stated (`91_not_in_source.md` N20). -/
inductive Diagnostic where
  /-- DegenerateRange: no randomness was applied. -/
  | degenerateRange (signal : String)
  /-- UnsupportedMessageSize: generation skipped. -/
  | unsupportedMessageSize (id : BitVec 32)
  deriving DecidableEq, Repr

/-- The check of one signal at load (R110, R114). -/
def checkSignal (sig : SignalLayout) : Option LoadError :=
  if ¬ (sig.start ≤ 63 ∧ fieldFits sig.start sig.length) then some (.layoutViolation sig.name)
  else if fle sig.minimum sig.maximum then none
  else some (.rangeViolation sig.name)

/-- The layouts the host holds: all of them when every signal passes, else the first error (R114). DESIGN CHOICE (log
entry 8): one signal that fails rejects the whole load, the layouts without a fault of their own too. -/
def loadLayouts (ms : List MessageLayout) : Except LoadError (List MessageLayout) :=
  match (ms.flatMap (·.signals)).findSome? checkSignal with
  | some e => .error e
  | none => .ok ms

/-- The payload the host writes to BUF for a frame: zero bytes at the high indices, bytes beyond index 7
dropped (R112, D24). -/
def framePayload (p : List Byte) : Payload :=
  ⟨p.getD 0 0#8, p.getD 1 0#8, p.getD 2 0#8, p.getD 3 0#8, p.getD 4 0#8, p.getD 5 0#8, p.getD 6 0#8, p.getD 7 0#8⟩

/-- A start bit or a length as the byte of a command word (`30_encoding.md` R50). DESIGN CHOICE (log entry 14): the
spec gives no word for a number above 255, which only a layout that never passed the check at load has (R114); it
goes out as 255, so that the block refuses the command with LayoutViolation and never runs it on a shortened number
("reject/fail loudly, never silently truncate", `20_memory.md` R36). -/
def operandByte (n : Nat) : Byte := BitVec.ofNat 8 (min n 255)

/-- Encoding one signal with physical value `p` (R115); a start or length above 255 by `operandByte` (log entry 14). -/
def encodeSignal (sig : SignalLayout) (p : Word) : List HostEvent :=
  [.wr .factor sig.factor, .wr .offset sig.offset, .wr .phys p]
    ++ expandLine (.encsig (operandByte sig.start) (operandByte sig.length) sig.order)

/-- Decoding one signal from the payload in BUF (R116); the reply of the last transaction is its value. A start or
length above 255 goes out by `operandByte` (log entry 14). -/
def decodeSignal (sig : SignalLayout) : List HostEvent :=
  [.wr .factor sig.factor, .wr .offset sig.offset]
    ++ expandLine (.decsig (operandByte sig.start) (operandByte sig.length) sig.order)
    ++ [.rd .phys]

/-- The host issues transactions and collects what the reads return. -/
def hostRun (es : List HostEvent) (s : State) : Except HostError (List Word × State) :=
  match performAll es s with
  | .next t => .ok (t.replies.drop s.replies.length, t)
  | .fault _ => .error .blockStopped
  | .refused _ => .error .blockStopped

end Sys2Proof.Machine
end

