-- ==== Sys2Proof/Machine/Decoder.lean ====
section
/-!
DEFINITION. Host level: the Frame Signal Decoder (`43_host_sequences.md` R123 to R125).
-/

namespace Sys2Proof.Machine

/-- The layout whose identifier matches the frame's id, both with the flag bits of EFF_FLAG_MASK masked off
(R123, D26: the mask is an argument). -/
def lookupLayout (effFlagMask : BitVec 32) (layouts : List MessageLayout) (id : BitVec 32) : Option MessageLayout :=
  layouts.find? fun m => m.id &&& ~~~effFlagMask == id &&& ~~~effFlagMask

/-- The transactions that decode all signals of a frame, in declaration order, from one write of BUF (R124). -/
def decodeEvents (p : List Byte) (sigs : List SignalLayout) : List HostEvent :=
  .wr .buf (packBuf (framePayload p)) :: sigs.flatMap decodeSignal

/-- `decode(frame, layouts)` (R123 to R125), with the block's state after it. A frame with no layout, or with
one of more than 8 bytes (D27), is an error of that frame only and issues no transaction. -/
def decodeFrame (effFlagMask : BitVec 32) (layouts : List MessageLayout) (frame : Frame) (s : State) :
    Except HostError (List (String × Word)) × State :=
  match lookupLayout effFlagMask layouts frame.id with
  | none => (.error .unknownMessageId, s)
  | some m =>
    if 8 < m.size then (.error .unsupportedMessageSize, s)
    else
      match hostRun (decodeEvents frame.payload m.signals) s with
      | .error e => (.error e, s)
      | .ok (replies, t) => (.ok ((m.signals.map (·.name)).zip replies), t)

/-- Frames in arrival order; an error of one frame never ends the stream (R125, R126). DESIGN CHOICE (log entry 10):
no `CLRF` is issued between frames, since R124 lists none, so a fault that an unvalidated layout raised stays recorded
and the later frames yield the PHYS from before it; the clear of `60_exceptions.md` R147 is left to the driver. -/
def decodeStream (effFlagMask : BitVec 32) (layouts : List MessageLayout) :
    List Frame → State → List (Except HostError (List (String × Word))) × State
  | [], s => ([], s)
  | f :: fs, s =>
    let (r, t) := decodeFrame effFlagMask layouts f s
    let (rs, u) := decodeStream effFlagMask layouts fs t
    (r :: rs, u)

end Sys2Proof.Machine
end

