-- ==== Sys2Proof/Machine/Generator.lean ====
section
/-!
DEFINITION. Host level: the Signal Value Generator (`43_host_sequences.md` R113, R117 to R122). The random
source is an oracle given as an argument, its answers numbered by the draw.
-/

namespace Sys2Proof.Machine

/-- The random source RAND (R113): an answer for every draw number and every range. Nothing is known of the
answers but what `drawInt` and `drawFloat` hold them to. -/
structure Rand where
  int : Nat → Nat → Nat
  float : Nat → Word → Word → Word
  bool : Nat → Bool

/-- `rand_int(n)`: an answer with `0 <= answer < n`, every such answer possible (R113). -/
def Rand.drawInt (r : Rand) (k n : Nat) : Nat := r.int k n % n

/-- `rand_float(lo, hi)`: an answer with `lo <= answer <= hi`, every such answer possible (R113). Where no answer lies
in range, `lo > hi` or a NaN bound, it is `lo`, which no call of the generator reaches (log entry 8). -/
def Rand.drawFloat (r : Rand) (k : Nat) (lo hi : Word) : Word :=
  if fle lo (r.float k lo hi) && fle (r.float k lo hi) hi then r.float k lo hi else lo

/-- The generator's configuration (R113). -/
structure GeneratorConfig where
  randomPayload : Bool
  allowRemoteFrames : Bool
  allowErrorFrames : Bool
  transmitterFilter : Option String
  deriving DecidableEq, Repr

/-- What one call of the generator yields. -/
structure Generated where
  id : BitVec 32
  payload : Payload
  remote : Bool
  error : Bool
  diagnostics : List Diagnostic
  deriving DecidableEq, Repr

/-- What a strategy prepares: the transactions that leave the payload in BUF, what it reports, and the number
of the next draw. -/
structure Plan where
  events : List HostEvent
  diagnostics : List Diagnostic
  nextDraw : Nat
  deriving DecidableEq, Repr

/-- The physical value of a signal (R118): the constant where the bounds are equal, else a draw. It is used only of
bounds with `minimum <= maximum`: `generateMessage` refuses the rest (log entry 8). -/
def choosePhysical (r : Rand) (k : Nat) (sig : SignalLayout) : Word :=
  if feq sig.minimum sig.maximum then sig.minimum else r.drawFloat k sig.minimum sig.maximum

/-- How many draws `choosePhysical` takes. -/
def drawsOf (sig : SignalLayout) : Nat := if feq sig.minimum sig.maximum then 0 else 1

/-- What `choosePhysical` reports. -/
def reportsOf (sig : SignalLayout) : List Diagnostic :=
  if feq sig.minimum sig.maximum then [.degenerateRange sig.name] else []

/-- A physical value for each signal, in order. -/
def choosePhysicals (r : Rand) : Nat → List SignalLayout → List (SignalLayout × Word)
  | _, [] => []
  | k, sig :: rest => (sig, choosePhysical r k sig) :: choosePhysicals r (k + drawsOf sig) rest

/-- The transactions of the range-based strategy for values already chosen (R117). -/
def buildPayload (choices : List (SignalLayout × Word)) : List HostEvent :=
  expandLine .clrbuf ++ choices.flatMap fun c => encodeSignal c.1 c.2

/-- The range-based strategy (R117, R118), unsupported for a message of more than 8 bytes (R119). -/
def rangeBased (r : Rand) (k : Nat) (m : MessageLayout) : Plan :=
  if 8 < m.size then
    { events := expandLine .clrbuf, diagnostics := [.unsupportedMessageSize m.id], nextDraw := k }
  else
    { events := buildPayload (choosePhysicals r k m.signals)
      diagnostics := m.signals.flatMap reportsOf
      nextDraw := k + (m.signals.map drawsOf).sum }

/-- One random payload byte. -/
def randomByte (r : Rand) (k : Nat) : Byte := BitVec.ofNat 8 (r.drawInt k 256)

/-- The unconstrained strategy (R120): eight random bytes, no command. -/
def unconstrained (r : Rand) (k : Nat) : Plan where
  events := [.wr .buf (packBuf ⟨randomByte r k, randomByte r (k + 1), randomByte r (k + 2), randomByte r (k + 3),
    randomByte r (k + 4), randomByte r (k + 5), randomByte r (k + 6), randomByte r (k + 7)⟩)]
  diagnostics := []
  nextDraw := k + 8

/-- The strategy the configuration selects (section 3 of `43_host_sequences.md`). -/
def strategy (r : Rand) (k : Nat) (cfg : GeneratorConfig) (m : MessageLayout) : Plan :=
  if cfg.randomPayload then unconstrained r k else rangeBased r k m

/-- Whether the strategy would draw a value for a signal whose `minimum <= maximum` fails, a NaN bound among the ways,
which only a layout that skipped the check at load has (`93_implementation_defined.md` V10). The unconstrained
strategy and a message of more than 8 bytes look at no bounds (R119, R120). -/
def outsideRules (cfg : GeneratorConfig) (m : MessageLayout) : Bool :=
  !cfg.randomPayload && decide (m.size ≤ 8) && m.signals.any fun sig => !fle sig.minimum sig.maximum

/-- A flag (R121): a random boolean only when its mode is enabled. -/
def drawFlag (r : Rand) (k : Nat) (enabled : Bool) : Bool := enabled && r.bool k

/-- How many draws `drawFlag` takes. -/
def flagDraws (enabled : Bool) : Nat := if enabled then 1 else 0

/-- `generate(message)` of the document's section 4.3: the payload is what the host reads from BUF. DESIGN CHOICE
(log entry 15): R117 to R120 list no `RD STATUS`, so the generator reads none, and on a block whose fault is recorded
it hands out a payload that lacks the discarded injections (`70_reset_and_hazards.md` R165 is then the caller's duty).
A message outside the rules of R118 is refused by name, with no transaction issued (log entry 8). -/
def generateMessage (r : Rand) (k : Nat) (cfg : GeneratorConfig) (m : MessageLayout) (s : State) :
    Except HostError (Generated × State) :=
  let plan := strategy r k cfg m
  if outsideRules cfg m then .error .rangeViolation
  else
    match hostRun (plan.events ++ [.rd .buf]) s with
    | .error e => .error e
    | .ok (replies, t) =>
      .ok ({ id := m.id
             payload := unpackBuf (replies.getLastD 0#64)
             remote := drawFlag r plan.nextDraw cfg.allowRemoteFrames
             error := drawFlag r (plan.nextDraw + flagDraws cfg.allowRemoteFrames) cfg.allowErrorFrames
             diagnostics := plan.diagnostics }, t)

/-- The candidates after the transmitter filter (R122). -/
def candidates (cfg : GeneratorConfig) (layouts : List MessageLayout) : List MessageLayout :=
  match cfg.transmitterFilter with
  | none => layouts
  | some t => layouts.filter (·.transmitter = t)

/-- Message selection (R122); refused for an empty candidate set (D28). -/
def selectMessage (r : Rand) (k : Nat) (cs : List MessageLayout) : Except HostError MessageLayout :=
  match cs[r.drawInt k cs.length]? with
  | some m => .ok m
  | none => .error .noCandidate

/-- `generate(layouts, config)` of the document's section 6 (R122): a message picked, then generated. -/
def generate (r : Rand) (layouts : List MessageLayout) (cfg : GeneratorConfig) (s : State) :
    Except HostError (Generated × State) :=
  match selectMessage r 0 (candidates cfg layouts) with
  | .error e => .error e
  | .ok m => generateMessage r 1 cfg m s

end Sys2Proof.Machine
end

