-- ==== Sys2Proof/Safety.lean ====
section
/-!
DEFINITION. What a safe state and a good run are, in the terms the statements use: the fault record is
consistent (`10_state.md` R16, R17, `60_exceptions.md` R140 to R144), and a run is good when it ends with no
fault recorded and needed no clear (`70_reset_and_hazards.md` R165 and section 6).
-/

namespace Sys2Proof.Safety

open Sys2Proof.Machine

/-- FINFO holds a word that the recorded cause explains: no command, or a command with an illegal layout. -/
def explains : Cause → Word → Bool
  | .none, _ => false
  | .illegalCommand, d => (decode d).toOption.isNone
  | .layoutViolation, d =>
    match decode d with
    | .ok i => !i.wellFormed
    | .error _ => false

/-- The fault record is consistent: with FAULT = 0 the cause and FINFO are zero; with FAULT = 1 the cause is
that of the word in FINFO. -/
def recordConsistent (s : State) : Bool :=
  if s.fault then explains s.cause s.finfo else s.cause = .none && s.finfo = 0#64

/-- `recordConsistent` as a proposition. -/
def RecordConsistent (s : State) : Prop := recordConsistent s = true
  deriving Decidable

/-- An event that acknowledges a fault: a write to STATUS with bit 0 set, or reset (R147). -/
def acknowledges : HostEvent → Bool
  | .wr .status d => clearsFault d
  | .reset => true
  | _ => false

/-- A word that is a command with a legal layout (`30_encoding.md` R52, R53). -/
def legalWord (d : Word) : Bool :=
  match decode d with
  | .ok i => i.wellFormed
  | .error _ => false

/-- The threshold of overflow in units of 2^-1074: the midpoint above the largest finite binary64
(`41_converter.md` R91). -/
def overflowUnits : Int := (2 ^ 54 - 1) * 2 ^ 2044

/-- A pattern is the exact value `num / den` units, `den > 0`, correctly rounded (`41_converter.md` R91): from the
overflow threshold on, the infinity of the value's sign; below it a finite value, no finite binary64 nearer, and with
the last bit zero where another lies equally near. -/
def CorrectlyRounded (x : Word) (num : Int) (den : Nat) : Prop :=
  if overflowUnits * den ≤ |num| then unpack x = .infinite (decide (num < 0))
  else ∃ (u : Bool) (r : Nat), unpack x = .finite u r ∧
    ∀ (y : Word) (c : Bool) (k : Nat), unpack y = .finite c k →
      |num - den * signedMag u r| ≤ |num - den * signedMag c k| ∧
      (signedMag c k ≠ signedMag u r → |num - den * signedMag u r| = |num - den * signedMag c k| →
        x.getLsbD 0 = false)

/-- A good run (section 6 of `70_reset_and_hazards.md`): nothing acknowledged a fault, and none is recorded at
the end. -/
def GoodRun (es : List HostEvent) (s t : State) : Prop :=
  es.all (fun e => !acknowledges e) = true ∧ performAll es s = .next t ∧ t.fault = false

end Sys2Proof.Safety
end

