-- ==== Sys2Proof/Certificates/Slice0/Obligations.lean ====
section
/-!
DEFINITION. The statements for the provers. Each is about the machine or about the host level that drives it;
none is about a program.
-/

open Sys2Proof Sys2Proof.Machine Sys2Proof.Safety

/-! ## Encoding (`30_encoding.md`) -/

/-- Decode and encode agree on every command, legal layout or not (R50 to R52, R57): no operand bit is lost. -/
def Obligations.DecodeOfEncode : Prop :=
  ∀ i : Instr, decode (encode i) = .ok i

/-- A command has one word: a word that decodes is the word of its command (R50, R52, R57). -/
def Obligations.EncodeOfDecode : Prop :=
  ∀ (d : Word) (i : Instr), decode d = .ok i → encode i = d

/-- R141: exactly which words raise IllegalCommand, and that the others are the four commands. -/
def Obligations.IllegalCommandCondition : Prop :=
  ∀ (s : State) (d : Word) (rest : List HostEvent), s.port = .wr .cmd d :: rest → s.fault = false →
    if d.extractLsb' 32 32 ≠ 0#32 ∨ ¬ (1 ≤ (d.extractLsb' 0 8).toNat ∧ (d.extractLsb' 0 8).toNat ≤ 4) ∨
        ((d.extractLsb' 0 8 = 1#8 ∨ d.extractLsb' 0 8 = 2#8) ∧ 1 < (d.extractLsb' 8 8).toNat) ∨
        ((d.extractLsb' 0 8 = 3#8 ∨ d.extractLsb' 0 8 = 4#8) ∧ d.extractLsb' 8 24 ≠ 0#24)
    then step s = .next { s with port := rest, fault := true, cause := .illegalCommand, finfo := d }
    else ∃ i, decode d = .ok i ∧ step s = exec i { s with port := rest }

/-- R56: the order in which a write to CMD is handled, in the terms of the spec's own pseudocode. -/
def Obligations.CommandHandlingOrder : Prop :=
  ∀ (s : State) (d : Word) (rest : List HostEvent), s.port = .wr .cmd d :: rest →
    step s =
      let u := { s with port := rest }
      let op := d.extractLsb' 0 8
      let ord := d.extractLsb' 8 8
      let start := d.extractLsb' 16 8
      let len := d.extractLsb' 24 8
      let order : ByteOrder := if ord = 0#8 then .little else .big
      let illegal : State := { u with fault := true, cause := .illegalCommand, finfo := d }
      if s.fault = true then .next u
      else if d.extractLsb' 32 32 ≠ 0#32 then .next illegal
      else if op = 1#8 ∨ op = 2#8 then
        if 1 < ord.toNat then .next illegal
        else if len = 0#8 ∨ 64 < len.toNat ∨ 64 < start.toNat + len.toNat then
          .next { u with fault := true, cause := .layoutViolation, finfo := d }
        else if op = 1#8 then exec (.extract start len order) u
        else exec (.inject start len order) u
      else if op = 3#8 ∨ op = 4#8 then
        if d.extractLsb' 8 24 ≠ 0#24 then .next illegal
        else if op = 3#8 then exec .tophys u
        else exec .toraw u
      else .next illegal

/-- Words of the worked-encodings table of R57, read bit by bit from R50, decode to what they stand for. -/
def Obligations.WorkedEncodings : Prop :=
  decode 0x0000000008000001#64 = .ok (.extract 0#8 8#8 .little) ∧
  decode 0x000000000C040101#64 = .ok (.extract 4#8 12#8 .big) ∧
  decode 0x0000000004080002#64 = .ok (.inject 8#8 4#8 .little) ∧
  decode 0x0000000040000102#64 = .ok (.inject 0#8 64#8 .big) ∧
  decode 0x0000000000000003#64 = .ok .tophys ∧
  decode 0x0000000000000004#64 = .ok .toraw ∧
  (decode 0x0000000000000000#64).toOption = none

/-! ## The port, the registers and the fault record (`20_memory.md`, `10_state.md`, `60_exceptions.md`) -/

/-- A step runs the decoded command: the word of the write at the head of the port is executed by its own
meaning, on the state with that write taken off. -/
def Obligations.StepRunsTheCommand : Prop :=
  ∀ (s : State) (d : Word) (rest : List HostEvent) (i : Instr), s.port = .wr .cmd d :: rest → decode d = .ok i →
    step s = exec i { s with port := rest }

/-- R31: every transaction completes; `WR` returns nothing and `RD` returns one value. A step performs exactly
the oldest event and leaves the rest; with no event it changes nothing (R149). The lists are the model's own fields
(log entry 1). -/
def Obligations.EveryTransactionCompletes : Prop :=
  (∀ s : State, s.port = [] → step s = .next s) ∧
  ∀ (s : State) (e : HostEvent) (rest : List HostEvent), s.port = e :: rest →
    ∃ t, step s = .next t ∧ t.port = rest ∧
      (match e with
        | .rd r => t.replies = s.replies ++ [s.readReg r]
        | .wr _ _ => t.replies = s.replies
        | .reset => t.replies = s.replies)

/-- R32: what `RD` returns for each index, that it changes no register, and that a second read at once
returns the same; for STATUS with the code of each cause written out (R16, R140). -/
def Obligations.ReadReturns : Prop :=
  ∀ (s : State) (r : Reg) (rest : List HostEvent), s.port = .rd r :: rest →
    let value : Word :=
      match r with
      | .buf => s.buf.b7 ++ s.buf.b6 ++ s.buf.b5 ++ s.buf.b4 ++ s.buf.b3 ++ s.buf.b2 ++ s.buf.b1 ++ s.buf.b0
      | .raw => s.raw
      | .phys => s.phys
      | .factor => s.factor
      | .offset => s.offset
      | .cmd => 0#64
      | .status =>
        let code : Byte :=
          match s.cause with
          | .none => 0#8
          | .illegalCommand => 1#8
          | .layoutViolation => 2#8
        0#48 ++ code ++ 0#7 ++ (if s.fault then 1#1 else 0#1)
      | .finfo => s.finfo
    step s = .next { s with port := rest, replies := s.replies ++ [value] } ∧
      ∀ rest', rest = .rd r :: rest' →
        step { s with port := rest, replies := s.replies ++ [value] } =
          .next { s with port := rest', replies := s.replies ++ [value, value] }

/-- R33: what `WR` does for each index, whatever FAULT is. CMD presents a command, STATUS looks at bit 0 only,
FINFO discards the write. -/
def Obligations.WriteStores : Prop :=
  ∀ (s : State) (r : Reg) (d : Word) (rest : List HostEvent), s.port = .wr r d :: rest →
    step s =
      let u := { s with port := rest }
      match r with
      | .buf => .next { u with buf := ⟨d.extractLsb' 0 8, d.extractLsb' 8 8, d.extractLsb' 16 8, d.extractLsb' 24 8,
          d.extractLsb' 32 8, d.extractLsb' 40 8, d.extractLsb' 48 8, d.extractLsb' 56 8⟩ }
      | .raw => .next { u with raw := d }
      | .phys => .next { u with phys := d }
      | .factor => .next { u with factor := d }
      | .offset => .next { u with offset := d }
      | .cmd => presentCommand d u
      | .status =>
        if d.getLsbD 0 = true then .next { u with fault := false, cause := .none, finfo := 0#64 } else .next u
      | .finfo => .next u

/-- R11: the host's 64-bit view of BUF and its eight bytes are one to one, byte `k` in bits `8*k+7 : 8*k`. -/
def Obligations.HostViewOfBuf : Prop :=
  (∀ d : Word, packBuf (unpackBuf d) = d) ∧ (∀ p : Payload, unpackBuf (packBuf p) = p) ∧
    ∀ (p : Payload) (k : Fin 8), (packBuf p).extractLsb' (8 * k.val) 8 = payloadByte p k

/-- R147: `WR(6, d)` with `d[0] = 1` clears FAULT, CAUSE and FINFO and nothing else, and the block accepts
commands again: the step after it executes the next command by its own meaning, and a well-formed one records no
fault. With `d[0] = 0` it does nothing. -/
def Obligations.FaultCleared : Prop :=
  ∀ (s : State) (d : Word) (rest : List HostEvent), s.port = .wr .status d :: rest →
    (d.getLsbD 0 = true →
      step s = .next { s with port := rest, fault := false, cause := .none, finfo := 0#64 } ∧
        ∀ (i : Instr) (rest' : List HostEvent), rest = .wr .cmd (encode i) :: rest' →
          step { s with port := rest, fault := false, cause := .none, finfo := 0#64 } =
            exec i { s with port := rest', fault := false, cause := .none, finfo := 0#64 } ∧
          (i.WellFormed → ∃ t,
            exec i { s with port := rest', fault := false, cause := .none, finfo := 0#64 } = .next t ∧
              t.fault = false)) ∧
    (d.getLsbD 0 = false → step s = .next { s with port := rest })

/-- R146: while FAULT = 1 every write to CMD is discarded, and every other transaction works as it does with no
fault recorded. -/
def Obligations.DiscardedWhileFaulted : Prop :=
  ∀ (s : State) (rest : List HostEvent), s.fault = true →
    (∀ d, s.port = .wr .cmd d :: rest → step s = .next { s with port := rest }) ∧
    (∀ r, s.port = .rd r :: rest → step s = .next { s with port := rest, replies := s.replies ++ [s.readReg r] }) ∧
    (∀ r d, r ≠ .cmd → s.port = .wr r d :: rest → step s = .next (({ s with port := rest } : State).writeReg r d))

/-- R144: fault entry writes FAULT, CAUSE and FINFO and nothing else, for both causes. -/
def Obligations.FaultEntry : Prop :=
  ∀ (s : State) (d : Word) (rest : List HostEvent), s.port = .wr .cmd d :: rest → s.fault = false →
    (∀ why, decode d = .error why →
      step s = .next { s with port := rest, fault := true, cause := .illegalCommand, finfo := d }) ∧
    (∀ i, decode d = .ok i → ¬ i.WellFormed →
      step s = .next { s with port := rest, fault := true, cause := .layoutViolation, finfo := d })

/-- R142: a write to CMD of a well-formed EXTRACT or INJECT word whose layout does not fit raises LayoutViolation,
and the command does nothing else (R144). Executing the command itself does the same, with FINFO the word that
`encode` gives for it (R57; log entry 11, DEDUCED: `exec` sees no word). -/
def Obligations.LayoutViolationTaken : Prop :=
  ∀ (s : State) (start len : Byte) (ord : ByteOrder) (i : Instr) (rest : List HostEvent),
    (i = .extract start len ord ∨ i = .inject start len ord) → s.fault = false →
    (len = 0#8 ∨ 64 < len.toNat ∨ 64 < start.toNat + len.toNat) →
    exec i s = .next { s with fault := true, cause := .layoutViolation, finfo := encode i } ∧
    (s.port = .wr .cmd (encode i) :: rest →
      step s = .next { s with port := rest, fault := true, cause := .layoutViolation, finfo := encode i })

/-- A recorded fault stays (R148, which the spec marks as derived from R144 and R146): the same after every
event but the acknowledgement, a write to STATUS with bit 0 set or a reset. -/
def Obligations.FaultStays : Prop :=
  ∀ (s t : State) (e : HostEvent) (rest : List HostEvent), s.port = e :: rest → s.fault = true →
    e ≠ .reset → (∀ d, e = .wr .status d → d.getLsbD 0 = false) → step s = .next t →
    t.fault = true ∧ t.cause = s.cause ∧ t.finfo = s.finfo

/-- R154: with no fault recorded, a step records one exactly when its event writes to CMD a word that is not a
command with a legal layout; a step that records none sets no flag: CAUSE keeps its value or is cleared. -/
def Obligations.NothingElseFaults : Prop :=
  ∀ (s t : State) (e : HostEvent) (rest : List HostEvent), s.port = e :: rest → s.fault = false →
    step s = .next t →
    (t.fault = true ↔ ∃ d, e = .wr .cmd d ∧ ∀ i, decode d = .ok i → ¬ i.WellFormed) ∧
    (t.fault = false → t.cause = s.cause ∨ t.cause = .none)

/-- R160 and R21: reset sets every register to its reset value and nothing else, from any state. That the model's
own fields, the host's side of the port and the count of draws, stay as they are is DEDUCED (log entry 5). -/
def Obligations.ResetValues : Prop :=
  ∀ (s : State) (rest : List HostEvent), s.port = .reset :: rest →
    step s = .next { s with
      buf := ⟨0#8, 0#8, 0#8, 0#8, 0#8, 0#8, 0#8, 0#8⟩, raw := 0#64, phys := 0#64
      factor := 0x3FF0000000000000#64, offset := 0#64, fault := false, cause := .none, finfo := 0#64, port := rest }

/-- The fault record stays consistent: with FAULT = 0, CAUSE and FINFO are zero; with FAULT = 1, CAUSE is 1 and
FINFO holds a word that is no command, or CAUSE is 2 and FINFO holds a command whose layout does not fit. Every
step keeps it, from every state that has it. -/
def Obligations.FaultRecordKept : Prop :=
  ∀ s t : State, RecordConsistent s → step s = .next t → RecordConsistent t

/-- The reset state has a consistent fault record. -/
def Obligations.FaultRecordAtReset : Prop :=
  RecordConsistent State.reset

/-- R11 to R14: which events can change each data register: reset, a host write of it, and the commands its rule
names as writers; FACTOR and OFFSET are written by no command. -/
def Obligations.WritersOfRegisters : Prop :=
  ∀ (s t : State) (e : HostEvent) (rest : List HostEvent), s.port = e :: rest → step s = .next t →
    (t.buf ≠ s.buf → e = .reset ∨ (∃ d, e = .wr .buf d) ∨
      ∃ start len ord, e = .wr .cmd (encode (.inject start len ord))) ∧
    (t.raw ≠ s.raw → e = .reset ∨ (∃ d, e = .wr .raw d) ∨
      (∃ start len ord, e = .wr .cmd (encode (.extract start len ord))) ∨ e = .wr .cmd (encode .toraw)) ∧
    (t.phys ≠ s.phys → e = .reset ∨ (∃ d, e = .wr .phys d) ∨ e = .wr .cmd (encode .tophys)) ∧
    (t.factor ≠ s.factor → e = .reset ∨ ∃ d, e = .wr .factor d) ∧
    (t.offset ≠ s.offset → e = .reset ∨ ∃ d, e = .wr .offset d)

/-- R19: the result of a command depends only on the registers its rule names as inputs (and, for TOPHYS, on the
draw of NAN_BITS, log entry 2); TORAW does not depend on the draw. -/
def Obligations.CommandInputs : Prop :=
  ∀ (s s' t t' : State) (i : Instr), s.fault = false → s'.fault = false → i.WellFormed →
    exec i s = .next t → exec i s' = .next t' →
    match i with
    | .extract _ _ _ => s.buf = s'.buf → t.raw = t'.raw
    | .inject _ _ _ => s.buf = s'.buf → s.raw = s'.raw → t.buf = t'.buf
    | .tophys => s.raw = s'.raw → s.factor = s'.factor → s.offset = s'.offset → s.nanDraws = s'.nanDraws →
        t.phys = t'.phys
    | .toraw => s.phys = s'.phys → s.factor = s'.factor → s.offset = s'.offset → t.raw = t'.raw

/-! ## The bit-field codec (`40_bitfield.md`) -/

/-- EXTRACT completes (R76): with no fault recorded and a legal layout, RAW gets the field and nothing else
changes. -/
def Obligations.ExtractEffect : Prop :=
  ∀ (s : State) (start len : Byte) (ord : ByteOrder), s.fault = false →
    1 ≤ len.toNat → len.toNat ≤ 64 → start.toNat + len.toNat ≤ 64 →
    exec (.extract start len ord) s =
      .next { s with raw := (assemble s.buf ord >>> start.toNat) &&& mask len.toNat }

/-- INJECT completes (R77): with no fault recorded and a legal layout, the field's bits of RAW are merged into
the payload by OR and nothing else changes. -/
def Obligations.InjectEffect : Prop :=
  ∀ (s : State) (start len : Byte) (ord : ByteOrder), s.fault = false →
    1 ≤ len.toNat → len.toNat ≤ 64 → start.toNat + len.toNat ≤ 64 →
    exec (.inject start len ord) s =
      .next { s with buf := serialize (assemble s.buf ord ||| ((s.raw &&& mask len.toNat) <<< start.toNat)) ord }

/-- The frame of EXTRACT and TORAW (R76, R98): whenever either answers a next state, every register but RAW is
unchanged, every payload byte is, and so is all that the host holds; with no fault recorded and a legal layout
the fault record is unchanged too. -/
def Obligations.FrameOfRawWriters : Prop :=
  ∀ (s t : State) (i : Instr), (i = .toraw ∨ ∃ start len ord, i = .extract start len ord) → exec i s = .next t →
    t.phys = s.phys ∧ t.factor = s.factor ∧ t.offset = s.offset ∧
    (∀ k, payloadByte t.buf k = payloadByte s.buf k) ∧
    t.port = s.port ∧ t.replies = s.replies ∧ t.nanDraws = s.nanDraws ∧
    (i.WellFormed → t.fault = s.fault ∧ t.cause = s.cause ∧ t.finfo = s.finfo)

/-- The frame of TOPHYS (R97): every register but PHYS is unchanged, every payload byte, the fault record, and
what the host holds. -/
def Obligations.FrameOfTophys : Prop :=
  ∀ s t : State, exec .tophys s = .next t →
    t.raw = s.raw ∧ t.factor = s.factor ∧ t.offset = s.offset ∧
    (∀ k, payloadByte t.buf k = payloadByte s.buf k) ∧
    t.fault = s.fault ∧ t.cause = s.cause ∧ t.finfo = s.finfo ∧ t.port = s.port ∧ t.replies = s.replies

/-- The frame of INJECT (R77, R37): every register but BUF is unchanged, and in BUF every bit of the assembled
word outside the field, so every payload byte that the field does not touch. -/
def Obligations.FrameOfInject : Prop :=
  ∀ (s t : State) (start len : Byte) (ord : ByteOrder), exec (.inject start len ord) s = .next t →
    t.raw = s.raw ∧ t.phys = s.phys ∧ t.factor = s.factor ∧ t.offset = s.offset ∧
    t.port = s.port ∧ t.replies = s.replies ∧ t.nanDraws = s.nanDraws ∧
    ((Instr.inject start len ord).WellFormed → t.fault = s.fault ∧ t.cause = s.cause ∧ t.finfo = s.finfo) ∧
    (∀ j : Nat, (j < start.toNat ∨ start.toNat + len.toNat ≤ j) →
      (assemble t.buf ord).getLsbD j = (assemble s.buf ord).getLsbD j) ∧
    (∀ k : Fin 8, (8 * k.val + 8 ≤ start.toNat ∨ start.toNat + len.toNat ≤ 8 * k.val) →
      match ord with
      | .little => payloadByte t.buf k = payloadByte s.buf k
      | .big => payloadByte t.buf k.rev = payloadByte s.buf k.rev)

/-- R70: the assembled word under each byte order, as a sum and byte by byte. -/
def Obligations.AssembledWord : Prop :=
  ∀ p : Payload,
    (assemble p .little).toNat = ∑ i : Fin 8, (payloadByte p i).toNat * 2 ^ (8 * i.val) ∧
    (assemble p .big).toNat = ∑ i : Fin 8, (payloadByte p i).toNat * 2 ^ (8 * (7 - i.val)) ∧
    ∀ i : Fin 8, (assemble p .little).extractLsb' (8 * i.val) 8 = payloadByte p i ∧
      (assemble p .big).extractLsb' (8 * (7 - i.val)) 8 = payloadByte p i

/-- R71 (marked derived by the spec): `serialize` inverts `assemble` for the same byte order, in both
directions, and its bytes are the word's. -/
def Obligations.SerializeInverts : Prop :=
  ∀ ord : ByteOrder, (∀ p : Payload, serialize (assemble p ord) ord = p) ∧
    (∀ w : Word, assemble (serialize w ord) ord = w) ∧
    ∀ (w : Word) (i : Fin 8), payloadByte (serialize w ord) i =
      match ord with
      | .little => w.extractLsb' (8 * i.val) 8
      | .big => w.extractLsb' (8 * (7 - i.val)) 8

/-- R72: the mask of each length from 1 to 64, with length 64 all ones. -/
def Obligations.MaskValue : Prop :=
  (∀ len : Nat, 1 ≤ len → len ≤ 64 → (mask len).toNat = 2 ^ len - 1 ∧
    ∀ k : Nat, (mask len).getLsbD k = decide (k < len)) ∧
  mask 64 = 0xFFFFFFFFFFFFFFFF#64 ∧ mask 1 = 1#64 ∧ mask 8 = 0xFF#64 ∧ mask 63 = 0x7FFFFFFFFFFFFFFF#64

/-- R73: `extract` under its condition: the shifted and masked word, below `2^len`, bit `k` of it bit
`start + k` of the assembled word. -/
def Obligations.ExtractBits : Prop :=
  ∀ (p : Payload) (start len : Nat) (ord : ByteOrder), 1 ≤ len → len ≤ 64 → start + len ≤ 64 →
    ∃ v, extract p start len ord = some v ∧ v = (assemble p ord >>> start) &&& mask len ∧ v.toNat < 2 ^ len ∧
      ∀ k : Nat, v.getLsbD k = (decide (k < len) && (assemble p ord).getLsbD (start + k))

/-- R74: `inject` under its condition: bits outside the field are kept, a bit inside becomes the OR of its old
value and the value's bit, and the shifted value fits in 64 bits. -/
def Obligations.InjectBits : Prop :=
  ∀ (p : Payload) (start len : Nat) (ord : ByteOrder) (v : Word), 1 ≤ len → len ≤ 64 → start + len ≤ 64 →
    ∃ q, inject p start len ord v = some q ∧
      q = serialize (assemble p ord ||| ((v &&& mask len) <<< start)) ord ∧
      (v &&& mask len).toNat * 2 ^ start < 2 ^ 64 ∧
      ∀ k : Nat, (assemble q ord).getLsbD k = ((assemble p ord).getLsbD k ||
        (decide (start ≤ k ∧ k < start + len) && v.getLsbD (k - start)))

/-- R79 (the document's property; the general form marked derived by the spec), round trip: what was injected
reads back, ORed with what the field held; from a buffer that is zero in the field, a value within the field's
range reads back as itself. -/
def Obligations.InjectThenExtract : Prop :=
  ∀ (p q : Payload) (start len : Nat) (ord : ByteOrder) (v u : Word),
    extract p start len ord = some u → inject p start len ord v = some q →
    extract q start len ord = some (u ||| (v &&& mask len)) ∧
    (u = 0#64 → v.toNat < 2 ^ len → extract q start len ord = some v)

/-- R79, non-interference: two fields of one byte order that do not overlap, both zero before: either order of
injection gives the same buffer, and the first value reads back. -/
def Obligations.NonInterference : Prop :=
  ∀ (p : Payload) (ord : ByteOrder) (sa la sb lb : Nat) (va vb : Word),
    fieldFits sa la → fieldFits sb lb → (sa + la ≤ sb ∨ sb + lb ≤ sa) →
    extract p sa la ord = some 0#64 → extract p sb lb ord = some 0#64 → va.toNat < 2 ^ la →
    ∃ q, (inject p sa la ord va).bind (fun q => inject q sb lb ord vb) = some q ∧
      (inject p sb lb ord vb).bind (fun q => inject q sa la ord va) = some q ∧
      extract q sa la ord = some va

/-- R79, the further consequences: injections commute always, even overlapping and of different byte orders;
injection is idempotent; a bit of the buffer only ever goes from 0 to 1. -/
def Obligations.InjectionsCommute : Prop :=
  ∀ (p : Payload) (oa ob : ByteOrder) (sa la sb lb : Nat) (va vb : Word), fieldFits sa la → fieldFits sb lb →
    (inject p sa la oa va).bind (fun q => inject q sb lb ob vb) =
      (inject p sb lb ob vb).bind (fun q => inject q sa la oa va) ∧
    (inject p sa la oa va).bind (fun q => inject q sa la oa va) = inject p sa la oa va ∧
    ∀ q, inject p sa la oa va = some q → ∀ k : Nat, (packBuf p).getLsbD k = true → (packBuf q).getLsbD k = true

/-- The codec commands in terms of the host's 64-bit view of BUF (R80, which the spec marks as derived). -/
def Obligations.CodecOnHostView : Prop :=
  (∀ p : Payload, assemble p .little = packBuf p ∧ assemble p .big = bswap64 (packBuf p)) ∧
  ∀ (s : State) (start len : Byte), s.fault = false → fieldFits start.toNat len.toNat →
    let bits := (s.raw &&& mask len.toNat) <<< start.toNat
    exec (.extract start len .little) s =
      .next { s with raw := (packBuf s.buf >>> start.toNat) &&& mask len.toNat } ∧
    exec (.extract start len .big) s =
      .next { s with raw := (bswap64 (packBuf s.buf) >>> start.toNat) &&& mask len.toNat } ∧
    (∃ t, exec (.inject start len .little) s = .next t ∧ packBuf t.buf = packBuf s.buf ||| bits) ∧
    (∃ t, exec (.inject start len .big) s = .next t ∧
      packBuf t.buf = bswap64 (bswap64 (packBuf s.buf) ||| bits) ∧ packBuf t.buf = packBuf s.buf ||| bswap64 bits)

/-! ## The converter (`41_converter.md`) -/

/-- TOPHYS completes (R97): PHYS gets `fadd(fmul(u2f(RAW), FACTOR), OFFSET)` and nothing else of the block changes.
`nanBits s.nanDraws` is the free value NAN_BITS (log entry 2): the statement holds whichever pattern it is. -/
def Obligations.TophysEffect : Prop :=
  ∀ s : State, s.fault = false →
    exec .tophys s = .next { s with
      phys := fadd (nanBits s.nanDraws) (fmul (nanBits s.nanDraws) (u2f s.raw) s.factor) s.offset
      nanDraws := s.nanDraws + 1 }

/-- TORAW completes (R98): RAW gets `f2u(fdiv(fsub(PHYS, OFFSET), FACTOR))` and nothing else changes, whatever
NaN pattern the operations produce on the way (R99). -/
def Obligations.TorawEffect : Prop :=
  ∀ (s : State) (nan : Word), s.fault = false → isNaN nan = true →
    exec .toraw s = .next { s with raw := f2u (fdiv nan (fsub nan s.phys s.offset) s.factor) }

/-- R91, supplied by the spec from general knowledge (G2, D16; log entry 4): each of the four operations is correctly
rounded. Of finite operands, the result is the exact product, sum, difference or quotient rounded to nearest, ties
to even, and the infinity of the right sign from the overflow threshold on; a product and a quotient have the
exclusive-or of the signs, a rounded zero among them. Magnitudes are whole numbers of 2^-1074. -/
def Obligations.OperationsCorrectlyRounded : Prop :=
  ∀ (nan a b : Word) (s t : Bool) (m n : Nat), unpack a = .finite s m → unpack b = .finite t n →
    CorrectlyRounded (fmul nan a b) (signedMag (s ^^ t) (m * n)) unitOne ∧
    CorrectlyRounded (fadd nan a b) (signedMag s m + signedMag t n) 1 ∧
    CorrectlyRounded (fsub nan a b) (signedMag s m - signedMag t n) 1 ∧
    signOf (fmul nan a b) = (s ^^ t) ∧
    (n ≠ 0 → CorrectlyRounded (fdiv nan a b) (signedMag (s ^^ t) (unitOne * m)) n ∧
      signOf (fdiv nan a b) = (s ^^ t))

/-- R91 (G2, D16; log entry 4), ties to even: when the exact value lies midway between the result and another
binary64, the result's last bit is zero. -/
def Obligations.TiesToEven : Prop :=
  ∀ (neg c sg : Bool) (n d r k : Nat) (x : Word), 0 < d → unpack (roundBits neg n d) = .finite sg r →
    unpack x = .finite c k → k ≠ r → |(n : Int) - r * d| = |(n : Int) - k * d| →
    (roundBits neg n d).getLsbD 0 = false

/-- R91 (G2, D16; log entry 4), overflow: a result is the infinity of its sign exactly from the midpoint above
the largest finite binary64 on, and is never a NaN. -/
def Obligations.OverflowThreshold : Prop :=
  ∀ (neg : Bool) (n d : Nat), 0 < d →
    (unpack (roundBits neg n d) = .infinite neg ↔ (2 ^ 54 - 1) * 2 ^ 2044 * d ≤ n) ∧
    unpack (roundBits neg n d) ≠ .nan

/-- R90, R91 (G1, G2; log entry 4): rounding a binary64 gives it back, subnormals and both zeros among them: no
flush to zero. -/
def Obligations.RepresentableIsExact : Prop :=
  ∀ (x : Word) (neg : Bool) (m : Nat), unpack x = .finite neg m → roundBits neg m 1 = x

/-- R91 (G2, D16; log entry 4): the special cases it lists. -/
def Obligations.SpecialCases : Prop :=
  ∀ (nan a b : Word) (s t : Bool) (m n : Nat),
    (unpack a = .nan ∨ unpack b = .nan →
      fmul nan a b = nan ∧ fadd nan a b = nan ∧ fsub nan a b = nan ∧ fdiv nan a b = nan) ∧
    (unpack a = .finite s m → m ≠ 0 → unpack b = .finite t 0 →
      fdiv nan a b = if s ^^ t then 0xFFF0000000000000#64 else 0x7FF0000000000000#64) ∧
    (unpack a = .finite s 0 → unpack b = .finite t 0 → fdiv nan a b = nan) ∧
    (unpack a = .infinite s → unpack b = .infinite t → fdiv nan a b = nan) ∧
    (unpack a = .infinite s → unpack b = .infinite s → fsub nan a b = nan) ∧
    (unpack a = .finite s 0 → unpack b = .infinite t → fmul nan a b = nan ∧ fmul nan b a = nan) ∧
    (unpack a = .finite s n → fsub nan a a = 0#64)

/-- R99: an operation that produces a NaN writes the pattern NAN_BITS, and every draw of it is a NaN pattern. -/
def Obligations.ProducedNanPattern : Prop :=
  (∀ n : Nat, (nanBits n).extractLsb' 52 11 = 0x7FF#11 ∧ (nanBits n).extractLsb' 0 52 ≠ 0#52) ∧
  ∀ nan a b : Word,
    (unpack (fmul nan a b) = .nan → fmul nan a b = nan) ∧ (unpack (fadd nan a b) = .nan → fadd nan a b = nan) ∧
    (unpack (fsub nan a b) = .nan → fsub nan a b = nan) ∧ (unpack (fdiv nan a b) = .nan → fdiv nan a b = nan)

/-- R92 (G3, D17; log entry 4): `u2f` is exact for at most 53 significant bits, otherwise nearest; never
negative, never NaN, never infinite; at most 2^64, which every `r >= 2^64 - 2^10` reaches. -/
def Obligations.UnsignedToFloat : Prop :=
  ∀ r : Word,
    (∀ k e : Nat, k < 2 ^ 53 → r.toNat = k * 2 ^ e → unpack (u2f r) = .finite false (unitOne * r.toNat)) ∧
    (∃ m, unpack (u2f r) = .finite false m ∧ m ≤ unitOne * 2 ^ 64 ∧
      ∀ (x : Word) (c : Bool) (k : Nat), unpack x = .finite c k →
        |(unitOne : Int) * r.toNat - m| ≤ |(unitOne : Int) * r.toNat - k| ∧
        (k ≠ m → |(unitOne : Int) * r.toNat - m| = |(unitOne : Int) * r.toNat - k| →
          (u2f r).getLsbD 0 = false)) ∧
    (2 ^ 64 - 2 ^ 10 ≤ r.toNat → u2f r = 0x43F0000000000000#64)

/-- R93 (the saturation is G4, D18; log entry 4): `f2u` truncates toward zero, exactly, in range; below zero and
for a NaN it gives 0, from 2^64 on it gives 2^64 - 1. -/
def Obligations.FloatToUnsigned : Prop :=
  ∀ x : Word,
    match unpack x with
    | .nan => f2u x = 0#64
    | .infinite neg => f2u x = if neg then 0#64 else 0xFFFFFFFFFFFFFFFF#64
    | .finite true _ => f2u x = 0#64
    | .finite false m =>
      (m < unitOne * 2 ^ 64 → unitOne * (f2u x).toNat ≤ m ∧ m < unitOne * ((f2u x).toNat + 1)) ∧
      (unitOne * 2 ^ 64 ≤ m → f2u x = 0xFFFFFFFFFFFFFFFF#64)

/-- R21 with R94 and R95: with the reset values of FACTOR and OFFSET the conversions are the identity: TOPHYS
gives `u2f(RAW)` for every raw value, and TORAW brings it back when it has at most 53 significant bits. Rests on
the binary64 numerics of R91 to R93, PRESUMED by the spec (log entry 4). -/
def Obligations.IdentityScaling : Prop :=
  ∀ nan r : Word,
    toPhysical (ieee nan) r State.reset.factor State.reset.offset = u2f r ∧
    ∀ k e : Nat, k < 2 ^ 53 → r.toNat = k * 2 ^ e →
      toRaw (ieee nan) (u2f r) State.reset.factor State.reset.offset = r

/-- R101 (D20, resting on D16 and D18; log entry 4): a zero factor is not refused. TOPHYS gives the offset (+0
for -0 with a product of +0; NAN_BITS for a NaN offset); TORAW gives all ones or zero. -/
def Obligations.ZeroFactor : Prop :=
  ∀ nan r p z o : Word, isNaN nan = true → (z = 0#64 ∨ z = 0x8000000000000000#64) →
    toPhysical (ieee nan) r z o = fadd nan z o ∧
    (isNaN o = false → toPhysical (ieee nan) r z o =
      if o = 0x8000000000000000#64 ∧ z = 0#64 then 0#64 else o) ∧
    (isNaN o = true → toPhysical (ieee nan) r z o = nan) ∧
    (toRaw (ieee nan) p z o = 0xFFFFFFFFFFFFFFFF#64 ∨ toRaw (ieee nan) p z o = 0#64) ∧
    (isNaN (fdiv nan (fsub nan p o) z) = true ∨ fdiv nan (fsub nan p o) z = 0x7FF0000000000000#64 ∨
      fdiv nan (fsub nan p o) z = 0xFFF0000000000000#64)

/-! ## Runs, several blocks, and the host level (`43_host_sequences.md`) -/

/-- A run of a list of events is as many steps of the machine, one event a step (R18, R38, R168; the list
stands in the model's own field `port`, log entry 1). -/
def Obligations.RunIsSteps : Prop :=
  ∀ (es : List HostEvent) (s t : State), performAll es s = .next t →
    Host.Core.run core es.length ({ s with port := es } : State) = .next ({ t with port := [] } : State)

/-- R165 (marked derived by the spec): a run that acknowledges no fault and ends with FAULT = 0 started with
FAULT = 0, and every command written in it executed: in the state that the events before it leave, FAULT is 0, the
word is a command with a legal layout, and the write does what that command's own meaning does; the run goes on from
there with no fault recorded. -/
def Obligations.GoodRunExecutesEveryCommand : Prop :=
  ∀ (es : List HostEvent) (s t : State), GoodRun es s t →
    s.fault = false ∧
    ∀ (before after : List HostEvent) (d : Word), es = before ++ .wr .cmd d :: after →
      ∃ (i : Instr) (u v : State), performAll before s = .next u ∧ u.fault = false ∧
        decode d = .ok i ∧ i.WellFormed ∧ performEvent (.wr .cmd d) u = exec i u ∧
        exec i u = .next v ∧ v.fault = false ∧ performAll after v = .next t

/-- R152: an event at one of several blocks changes that block alone. -/
def Obligations.BlocksIndependent : Prop :=
  ∀ (k : Nat) (e : HostEvent) (bs bs' : List State), performOn k e bs = .next bs' →
    bs'.length = bs.length ∧ (∀ j, j ≠ k → bs'[j]? = bs[j]?) ∧
    ∀ s, bs[k]? = some s → ∃ t, performEvent e s = .next t ∧ bs'[k]? = some t

/-- R58: the pseudo-operations are exactly their expansions, and a DECSIG whose EXTRACT faults discards its
TOPHYS, so PHYS keeps its value. -/
def Obligations.PseudoOperations : Prop :=
  expandLine .clrbuf = [.wr .buf 0#64] ∧ expandLine .clrf = [.wr .status 1#64] ∧
  (∀ f o, expandLine (.scale f o) = [.wr .factor f, .wr .offset o]) ∧
  (∀ start len ord, expandLine (.decsig start len ord) =
    [.wr .cmd (encode (.extract start len ord)), .wr .cmd 3#64]) ∧
  (∀ start len ord, expandLine (.encsig start len ord) =
    [.wr .cmd 4#64, .wr .cmd (encode (.inject start len ord))]) ∧
  ∀ (s : State) (start len : Byte) (ord : ByteOrder), s.fault = false →
    ¬ (Instr.extract start len ord).WellFormed →
    performAll (expandLine (.decsig start len ord)) s =
      .next { s with fault := true, cause := .layoutViolation, finfo := encode (.extract start len ord) }

/-- R114: the check at load passes exactly the layouts whose fields lie in the window and whose bounds are in
order (the second check is the model's, log entry 8, DESIGN CHOICE), and no command that such a layout's signals
make faults. -/
def Obligations.LoadCheck : Prop :=
  ∀ ms : List MessageLayout,
    (loadLayouts ms = .ok ms ↔ ∀ m ∈ ms, ∀ sig ∈ m.signals,
      (sig.start ≤ 63 ∧ fieldFits sig.start sig.length) ∧ fle sig.minimum sig.maximum = true) ∧
    (loadLayouts ms = .ok ms → ∀ m ∈ ms, ∀ sig ∈ m.signals,
      legalWord (encode (.extract (operandByte sig.start) (operandByte sig.length) sig.order)) = true ∧
      legalWord (encode (.inject (operandByte sig.start) (operandByte sig.length) sig.order)) = true)

/-- R112: the payload given to the block for a frame of `n` bytes. -/
def Obligations.FramePadding : Prop :=
  ∀ (p : List Byte) (i : Fin 8),
    payloadByte (framePayload p) i = if h : i.val < p.length then p[i.val] else 0#8

/-- R115: encoding one signal leaves the payload ORed with its field, the unmasked raw value in RAW, and the
physical value in PHYS. For a layout that does not fit, which a host that does not validate may issue (R114), the
INJECT is refused: the payload is kept and LayoutViolation recorded (R142); that this holds for a start or length
above 255 too is the model's choice of the word issued (log entry 14, DESIGN CHOICE). -/
def Obligations.EncodeSignal : Prop :=
  ∀ (sig : SignalLayout) (p : Word) (s : State), s.fault = false →
    (fieldFits sig.start sig.length →
      performAll (encodeSignal sig p) s = .next { s with
        factor := sig.factor, offset := sig.offset, phys := p
        raw := toRaw s.numerics p sig.factor sig.offset
        buf := serialize (assemble s.buf sig.order |||
          ((toRaw s.numerics p sig.factor sig.offset &&& mask sig.length) <<< sig.start)) sig.order }) ∧
    (¬ fieldFits sig.start sig.length →
      performAll (encodeSignal sig p) s = .next { s with
        factor := sig.factor, offset := sig.offset, phys := p
        raw := toRaw s.numerics p sig.factor sig.offset
        fault := true, cause := .layoutViolation
        finfo := encode (.inject (operandByte sig.start) (operandByte sig.length) sig.order) })

/-- R124 with R116: decoding a frame yields one pair per signal, in the layout's order, each the physical value
of the raw field of the frame's payload; the payload in BUF is the frame's. The draw numbers of NAN_BITS are the
model's own (log entry 2). -/
def Obligations.DecodeFrame : Prop :=
  ∀ (mask' : BitVec 32) (ms : List MessageLayout) (m : MessageLayout) (f : Frame) (s : State),
    lookupLayout mask' ms f.id = some m → m.size ≤ 8 → s.fault = false →
    (∀ sig ∈ m.signals, fieldFits sig.start sig.length) →
    (decodeFrame mask' ms f s).1 = .ok (m.signals.mapIdx fun j sig =>
      (sig.name, toPhysical (ieee (nanBits (s.nanDraws + j)))
        ((assemble (framePayload f.payload) sig.order >>> sig.start) &&& mask sig.length) sig.factor sig.offset)) ∧
    (decodeFrame mask' ms f s).2.buf = framePayload f.payload ∧ (decodeFrame mask' ms f s).2.fault = false

/-- R125, R124: a frame that matches no layout, or one of more than 8 bytes, is an error of that frame only. That no
transaction at all is issued, the payload's write to BUF among them, and the block is unchanged, is the model's choice
(log entry 10, DEDUCED and DESIGN CHOICE): R125 says that no command is issued, R124 that signal decoding is skipped. -/
def Obligations.DecodeErrors : Prop :=
  ∀ (mask' : BitVec 32) (ms : List MessageLayout) (f : Frame) (s : State),
    ((∀ m ∈ ms, m.id &&& ~~~mask' ≠ f.id &&& ~~~mask') →
      decodeFrame mask' ms f s = (.error .unknownMessageId, s)) ∧
    (∀ m, lookupLayout mask' ms f.id = some m → 8 < m.size →
      decodeFrame mask' ms f s = (.error .unsupportedMessageSize, s))

/-- R117: the order in which the signals are taken does not change the payload. -/
def Obligations.SignalOrderIrrelevant : Prop :=
  ∀ (cs cs' : List (SignalLayout × Word)) (s : State), cs.Perm cs' → s.fault = false →
    (∀ c ∈ cs, fieldFits c.1.start c.1.length) →
    ∃ t t', performAll (buildPayload cs) s = .next t ∧ performAll (buildPayload cs') s = .next t' ∧
      t.buf = t'.buf ∧ t.fault = false ∧ t'.fault = false

/-- R119: the range-based strategy on a message of more than 8 bytes yields the all-zero payload and a
diagnostic; no command is issued, so only BUF and the host's replies change (STATUS is not read, log entry 15). -/
def Obligations.OversizeMessage : Prop :=
  ∀ (r : Rand) (k : Nat) (cfg : GeneratorConfig) (m : MessageLayout) (s : State),
    8 < m.size → cfg.randomPayload = false →
    ∃ g t, generateMessage r k cfg m s = .ok (g, t) ∧
      g.payload = ⟨0#8, 0#8, 0#8, 0#8, 0#8, 0#8, 0#8, 0#8⟩ ∧ g.diagnostics = [.unsupportedMessageSize m.id] ∧
      t = { s with buf := ⟨0#8, 0#8, 0#8, 0#8, 0#8, 0#8, 0#8, 0#8⟩, replies := s.replies ++ [0#64] }

/-- R118 and the property of section 6: the chosen physical value lies between the bounds, whatever the random
source answers, and is the constant where the bounds are equal. The oracle's answer is held to the range of R113 by
the model, which takes the lower bound for an answer outside it (log entry 9, DESIGN CHOICE). A message of the
range-based strategy with a signal whose bounds are out of order, or a NaN, is refused by name: the spec has a model
refuse it (V10), the name is the model's (log entry 8, DESIGN CHOICE). -/
def Obligations.RangeContainment : Prop :=
  (∀ (r : Rand) (k : Nat) (sig : SignalLayout), fle sig.minimum sig.maximum = true →
    fle sig.minimum (choosePhysical r k sig) = true ∧ fle (choosePhysical r k sig) sig.maximum = true ∧
    (feq sig.minimum sig.maximum = true → choosePhysical r k sig = sig.minimum)) ∧
  ∀ (r : Rand) (k : Nat) (cfg : GeneratorConfig) (m : MessageLayout) (s : State), cfg.randomPayload = false →
    m.size ≤ 8 → (∃ sig ∈ m.signals, fle sig.minimum sig.maximum = false) →
    generateMessage r k cfg m s = .error .rangeViolation

/-- R120, R121: the unconstrained strategy puts eight random bytes into the payload without a command, and a
flag is set only when its mode is enabled. The draws are numbered and held to their range by the model (log entry 9),
and STATUS is not read (log entry 15), DESIGN CHOICES both. -/
def Obligations.UnconstrainedPayload : Prop :=
  ∀ (r : Rand) (k : Nat) (cfg : GeneratorConfig) (m : MessageLayout) (s : State), cfg.randomPayload = true →
    ∃ g t, generateMessage r k cfg m s = .ok (g, t) ∧ g.id = m.id ∧ g.diagnostics = [] ∧
      (∀ i : Fin 8, payloadByte g.payload i = BitVec.ofNat 8 (r.drawInt (k + i.val) 256)) ∧
      (cfg.allowRemoteFrames = false → g.remote = false) ∧ (cfg.allowErrorFrames = false → g.error = false) ∧
      t = { s with buf := g.payload, replies := s.replies ++ [packBuf g.payload] }
end

