-- ==== Sys2Proof/Laws/Codec.lean ====
section
/-!
SUPPORT. The operand forms of the codec bit by bit: which payload bit each bit of an assembled word is, and which
bits a mask, a field and an injected field have. Provers cite these instead of unfolding the forms.
-/

namespace Sys2Proof.Machine

/-- Bit `j` of eight bytes side by side, `b0` the lowest: a bit of the byte that `j` lies in. -/
theorem append8_getLsbD (b0 b1 b2 b3 b4 b5 b6 b7 : Byte) (j : Nat) :
    (b7 ++ b6 ++ b5 ++ b4 ++ b3 ++ b2 ++ b1 ++ b0 : Word).getLsbD j =
      if j < 8 then b0.getLsbD j else if j < 16 then b1.getLsbD (j - 8) else if j < 24 then b2.getLsbD (j - 16)
      else if j < 32 then b3.getLsbD (j - 24) else if j < 40 then b4.getLsbD (j - 32)
      else if j < 48 then b5.getLsbD (j - 40) else if j < 56 then b6.getLsbD (j - 48) else b7.getLsbD (j - 56) := by
  simp only [BitVec.getLsbD_append, Nat.sub_sub]
  split_ifs <;> first | rfl | omega

/-- Bit `j` of the little-endian word, byte by byte (R70). -/
theorem assemble_little_getLsbD (p : Payload) (j : Nat) :
    (assemble p .little).getLsbD j =
      if j < 8 then p.b0.getLsbD j else if j < 16 then p.b1.getLsbD (j - 8) else if j < 24 then p.b2.getLsbD (j - 16)
      else if j < 32 then p.b3.getLsbD (j - 24) else if j < 40 then p.b4.getLsbD (j - 32)
      else if j < 48 then p.b5.getLsbD (j - 40) else if j < 56 then p.b6.getLsbD (j - 48)
      else p.b7.getLsbD (j - 56) :=
  append8_getLsbD ..

/-- Bit `j` of the big-endian word, byte by byte (R70). -/
theorem assemble_big_getLsbD (p : Payload) (j : Nat) :
    (assemble p .big).getLsbD j =
      if j < 8 then p.b7.getLsbD j else if j < 16 then p.b6.getLsbD (j - 8) else if j < 24 then p.b5.getLsbD (j - 16)
      else if j < 32 then p.b4.getLsbD (j - 24) else if j < 40 then p.b3.getLsbD (j - 32)
      else if j < 48 then p.b2.getLsbD (j - 40) else if j < 56 then p.b1.getLsbD (j - 48)
      else p.b0.getLsbD (j - 56) :=
  append8_getLsbD ..

/-- The host's view of BUF is the little-endian word (R80). -/
theorem packBuf_eq (p : Payload) : packBuf p = assemble p .little := rfl

/-- A host write of BUF stores the little-endian bytes. -/
theorem unpackBuf_eq (d : Word) : unpackBuf d = serialize d .little := rfl

/-- Bit `k` of byte `i` of a word. -/
theorem wordByte_getLsbD (w : Word) (i k : Nat) :
    (wordByte w i).getLsbD k = (decide (k < 8) && w.getLsbD (8 * i + k)) := by
  simp [wordByte]

/-- A mask has the low `len` bits, for `len` up to 64 (R72). -/
theorem mask_getLsbD (len k : Nat) (h : len ≤ 64) : (mask len).getLsbD k = decide (k < len) := by
  unfold mask
  rw [BitVec.getLsbD_ofNat, Nat.testBit_two_pow_sub_one]
  by_cases hk : k < len <;> simp [hk]
  omega

/-- Bit `k` of a field (R73). -/
theorem fieldOf_getLsbD (w : Word) (start len k : Nat) (h : len ≤ 64) :
    (fieldOf w start len).getLsbD k = (w.getLsbD (start + k) && decide (k < len)) := by
  simp [fieldOf, mask_getLsbD _ _ h]

/-- Bit `k` of the bits INJECT merges (R74). -/
theorem fieldBits_getLsbD (v : Word) (start len k : Nat) (h : fieldFits start len) :
    (fieldBits v start len).getLsbD k = (decide (start ≤ k ∧ k < start + len) && v.getLsbD (k - start)) := by
  obtain ⟨h1, h2, h3⟩ := h
  unfold fieldBits
  rw [BitVec.getLsbD_shiftLeft, BitVec.getLsbD_and, mask_getLsbD _ _ h2]
  by_cases ha : start ≤ k
  · by_cases hb : k < start + len
    · simp [ha, hb, show ¬ k < start by omega, show k - start < len by omega, show k < 64 by omega]
    · simp [ha, hb, show ¬ k - start < len by omega]
  · simp [ha, show k < start by omega]

end Sys2Proof.Machine
end

