-- ==== Sys2Proof/Laws/Decode.lean ====
section
/-!
SUPPORT. The fields of a command word (`30_encoding.md` R50).
-/

namespace Sys2Proof

@[simp] theorem opField_commandWord (op start len ord : Byte) : opField (commandWord op start len ord) = op := by
  ext i hi
  simp only [opField, commandWord, BitVec.getElem_extractLsb', BitVec.getLsbD_append]
  rw [← BitVec.getLsbD_eq_getElem]
  simp [show (0 + i) = i by omega, hi]

@[simp] theorem ordField_commandWord (op start len ord : Byte) : ordField (commandWord op start len ord) = ord := by
  ext i hi
  simp only [ordField, commandWord, BitVec.getElem_extractLsb', BitVec.getLsbD_append]
  rw [← BitVec.getLsbD_eq_getElem]
  simp [show ¬ (8 + i < 8) by omega, show 8 + i - 8 = i by omega, hi]

@[simp] theorem startField_commandWord (op start len ord : Byte) :
    startField (commandWord op start len ord) = start := by
  ext i hi
  simp only [startField, commandWord, BitVec.getElem_extractLsb', BitVec.getLsbD_append]
  rw [← BitVec.getLsbD_eq_getElem]
  simp [show ¬ (16 + i < 8) by omega, show 16 + i - 8 - 8 = i by omega, show ¬ (16 + i - 8 < 8) by omega, hi]

@[simp] theorem lenField_commandWord (op start len ord : Byte) : lenField (commandWord op start len ord) = len := by
  ext i hi
  simp only [lenField, commandWord, BitVec.getElem_extractLsb', BitVec.getLsbD_append]
  rw [← BitVec.getLsbD_eq_getElem]
  simp [show ¬ (24 + i < 8) by omega, show 24 + i - 8 - 8 - 8 = i by omega, show ¬ (24 + i - 8 < 8) by omega,
    show ¬ (24 + i - 8 - 8 < 8) by omega, hi]

@[simp] theorem upperField_commandWord (op start len ord : Byte) :
    upperField (commandWord op start len ord) = 0#32 := by
  ext i hi
  simp only [upperField, commandWord, BitVec.getElem_extractLsb', BitVec.getLsbD_append]
  simp [show ¬ (32 + i < 8) by omega, show ¬ (32 + i - 8 < 8) by omega, show ¬ (32 + i - 8 - 8 < 8) by omega,
    show ¬ (32 + i - 8 - 8 - 8 < 8) by omega]

/-- A word is its five fields side by side (R50). -/
theorem word_eq_append (d : Word) :
    d = upperField d ++ lenField d ++ startField d ++ ordField d ++ opField d := by
  apply BitVec.eq_of_getLsbD_eq
  intro i hi
  simp only [upperField, lenField, startField, ordField, opField, BitVec.getLsbD_append, BitVec.getLsbD_extractLsb']
  by_cases h1 : i < 8
  · simp [h1]
  by_cases h2 : i < 16
  · simp [h1, show i - 8 < 8 by omega, show 8 + (i - 8) = i by omega]
  by_cases h3 : i < 24
  · simp [h1, show ¬ i - 8 < 8 by omega, show i - 8 - 8 < 8 by omega, show 16 + (i - 8 - 8) = i by omega]
  by_cases h4 : i < 32
  · simp [h1, show ¬ i - 8 < 8 by omega, show ¬ i - 8 - 8 < 8 by omega, show i - 8 - 8 - 8 < 8 by omega, show 24 + (i - 8 - 8 - 8) = i by omega]
  · simp [h1, show ¬ i - 8 < 8 by omega, show ¬ i - 8 - 8 < 8 by omega, show ¬ i - 8 - 8 - 8 < 8 by omega, show 32 + (i - 8 - 8 - 8 - 8) = i by omega]
    intro; omega


/-- A word from its five fields. -/
def ofFields (u : BitVec 32) (l s o p : Byte) : Word := u ++ l ++ s ++ o ++ p

/-- Which field a bit of a word lies in. -/
theorem ofFields_getLsbD (u : BitVec 32) (l s o p : Byte) (i : Nat) : (ofFields u l s o p).getLsbD i =
   if i < 8 then p.getLsbD i else if i < 16 then o.getLsbD (i-8) else if i < 24 then s.getLsbD (i-16) else if i < 32 then l.getLsbD (i-24) else u.getLsbD (i-32) := by
  simp only [ofFields, BitVec.getLsbD_append]
  by_cases h1 : i < 8
  · simp [h1]
  by_cases h2 : i < 16
  · simp [h1, h2, show i - 8 < 8 by omega]
  by_cases h3 : i < 24
  · simp [h1, h2, h3, show ¬ i - 8 < 8 by omega, show i - 16 < 8 by omega, show i - 8 - 8 = i - 16 by omega]
  by_cases h4 : i < 32
  · simp [h1, h2, h3, h4, show ¬ i - 8 < 8 by omega, show ¬ i - 8 - 8 < 8 by omega,
      show i - 24 < 8 by omega, show i - 8 - 8 - 8 = i - 24 by omega]
  · simp [h1, h2, h3, h4, show ¬ i - 8 < 8 by omega, show ¬ i - 8 - 8 < 8 by omega,
      show ¬ i - 8 - 8 - 8 < 8 by omega, show i - 8 - 8 - 8 - 8 = i - 32 by omega]

/-- A bitwise AND works field by field. -/
theorem ofFields_and (u u' : BitVec 32) (l l' s s' o o' p p' : Byte) :
   ofFields u l s o p &&& ofFields u' l' s' o' p' = ofFields (u &&& u') (l &&& l') (s &&& s') (o &&& o') (p &&& p') := by
  apply BitVec.eq_of_getLsbD_eq
  intro i hi
  simp only [BitVec.getLsbD_and, ofFields_getLsbD]
  split_ifs <;> rfl

/-- Two words are equal when their fields are. -/
theorem ofFields_inj (u u' : BitVec 32) (l l' s s' o o' p p' : Byte) :
   ofFields u l s o p = ofFields u' l' s' o' p' ↔ u = u' ∧ l = l' ∧ s = s' ∧ o = o' ∧ p = p' := by
  constructor
  · intro h
    have g : ∀ i, (ofFields u l s o p).getLsbD i = (ofFields u' l' s' o' p').getLsbD i := fun i => by rw [h]
    simp only [ofFields_getLsbD] at g
    refine ⟨?_, ?_, ?_, ?_, ?_⟩ <;> apply BitVec.eq_of_getLsbD_eq <;> intro i hi
    · have := g (32 + i)
      simpa [show ¬ 32 + i < 8 by omega, show ¬ 32 + i < 16 by omega, show ¬ 32 + i < 24 by omega, show ¬ 32 + i < 32 by omega] using this
    · have := g (24 + i)
      simpa [show ¬ 24 + i < 8 by omega, show ¬ 24 + i < 16 by omega, show ¬ 24 + i < 24 by omega, show 24 + i < 32 by omega] using this
    · have := g (16 + i)
      simpa [show ¬ 16 + i < 8 by omega, show ¬ 16 + i < 16 by omega, show 16 + i < 24 by omega] using this
    · have := g (8 + i)
      simpa [show ¬ 8 + i < 8 by omega, show 8 + i < 16 by omega] using this
    · have := g i
      simpa [show i < 8 by omega] using this
  · rintro ⟨rfl, rfl, rfl, rfl, rfl⟩; rfl

/-- The format F mask in terms of the fields (R52): bits 15:9 of the word are checked, bit 8 and the two operand bytes are free. -/
theorem selects_maskF (op : Byte) (d : Word) :
    selects maskF (ofFields 0#32 0#8 0#8 0#8 op) d = true ↔
      (upperField d = 0#32 ∧ ordField d &&& 0xFE#8 = 0#8 ∧ opField d = op) := by
  unfold selects
  rw [beq_iff_eq]
  conv_lhs => rw [word_eq_append d]
  rw [show maskF = ofFields (BitVec.allOnes 32) 0#8 0#8 0xFE#8 (BitVec.allOnes 8) by decide]
  erw [ofFields_and, ofFields_inj]
  simp only [BitVec.and_allOnes, BitVec.and_zero]
  tauto

/-- The format Z mask compares the whole word (R54). -/
theorem selects_maskZ (p d : Word) : selects maskZ p d = true ↔ d = p := by
  unfold selects maskZ
  rw [beq_iff_eq, show (0xFFFFFFFFFFFFFFFF#64) = BitVec.allOnes 64 by decide, BitVec.and_allOnes]

/-- A matching `ord` is 0 or 1 (R52). -/
theorem ordByte_masked (o : Byte) : o &&& 0xFE#8 = 0#8 ↔ o = 0#8 ∨ o = 1#8 := by
  revert o; decide

/-- The byte order is the low bit of `ord`. -/
theorem byteOrderField_eq (d : Word) : byteOrderField d = if (ordField d).getLsbD 0 then .big else .little := by
  simp [byteOrderField, ordField]

/-- A command word is a word of fields with a zero upper half. -/
theorem commandWord_eq (op start len ord : Byte) : commandWord op start len ord = ofFields 0#32 len start ord op := rfl

/-- The decoder in terms of the fields. -/
theorem decode_eq (d : Word) : decode d =
    if upperField d = 0#32 ∧ (ordField d = 0#8 ∨ ordField d = 1#8) ∧ opField d = 1#8 then
      .ok (.extract (startField d) (lenField d) (byteOrderField d))
    else if upperField d = 0#32 ∧ (ordField d = 0#8 ∨ ordField d = 1#8) ∧ opField d = 2#8 then
      .ok (.inject (startField d) (lenField d) (byteOrderField d))
    else if d = 3#64 then .ok .tophys
    else if d = 4#64 then .ok .toraw
    else .error (rejectionOf d) := by
  have h1 := selects_maskF 1#8 d
  have h2 := selects_maskF 2#8 d
  rw [ordByte_masked] at h1 h2
  rw [show ofFields 0#32 0#8 0#8 0#8 1#8 = 1#64 by decide] at h1
  rw [show ofFields 0#32 0#8 0#8 0#8 2#8 = 2#64 by decide] at h2
  simp only [decode, h1, h2, selects_maskZ]

/-- The byte order of a command word is the one it was made with. -/
theorem byteOrderField_commandWord (op start len : Byte) (o : ByteOrder) : byteOrderField (commandWord op start len (ordByte o)) = o := by
  rw [byteOrderField_eq]; cases o <;> simp [ordByte] 
/-- The byte of the byte order a legal word selects is its `ord` byte. -/
theorem ordByte_byteOrderField (d : Word) (h : ordField d = 0#8 ∨ ordField d = 1#8) : ordByte (byteOrderField d) = ordField d := by
  rw [byteOrderField_eq]
  rcases h with h | h <;> rw [h] <;> decide

/-- A word is made of its fields. -/
theorem word_of_fields (d : Word) : d = ofFields (upperField d) (lenField d) (startField d) (ordField d) (opField d) := word_eq_append d

/-- Bits 31:8 are zero when the three operand bytes are. -/
theorem operandBits_eq_zero (d : Word) : d.extractLsb' 8 24 = 0#24 ↔ lenField d = 0#8 ∧ startField d = 0#8 ∧ ordField d = 0#8 := by
  have : d.extractLsb' 8 24 = (lenField d ++ startField d ++ ordField d : BitVec 24) := by
    apply BitVec.eq_of_getLsbD_eq
    intro i hi
    simp only [lenField, startField, ordField, BitVec.getLsbD_append, BitVec.getLsbD_extractLsb', hi]
    by_cases h1 : i < 8
    · simp [h1]
    by_cases h2 : i < 16
    · simp [h1, show i - 8 < 8 by omega, show 16 + (i - 8) = 8+i by omega]
    · simp [h1, show ¬ i - 8 < 8 by omega, show i - 8 - 8 < 8 by omega, show 24 + (i - 8 - 8) = 8+i by omega]
  rw [this]
  rw [show (0#24) = (0#8 ++ 0#8 ++ 0#8 : BitVec 24) by decide]
  generalize lenField d = a; generalize startField d = b; generalize ordField d = c
  constructor
  · intro h
    have g : ∀ i, (a ++ b ++ c : BitVec 24).getLsbD i = (0#8 ++ 0#8 ++ 0#8 : BitVec 24).getLsbD i := fun i => by rw [h]
    simp only [BitVec.getLsbD_append] at g
    refine ⟨?_,?_,?_⟩ <;> apply BitVec.eq_of_getLsbD_eq <;> intro i hi
    · have := g (16 + i); simpa [show ¬ 16 + i < 8 by omega, show ¬ 16 + i - 8 < 8 by omega, show 16 + i - 8 - 8 = i by omega] using this
    · have := g (8 + i); simpa [hi] using this
    · have := g i; simpa [hi] using this
  · rintro ⟨rfl,rfl,rfl⟩; rfl

/-- A format Z word: the upper half and bits 31:8 are zero (R54, R141). -/
theorem zeroOperands_iff (d : Word) (p : Byte) : d = ofFields 0#32 0#8 0#8 0#8 p ↔ upperField d = 0#32 ∧ d.extractLsb' 8 24 = 0#24 ∧ opField d = p := by
  conv_lhs => rw [word_of_fields d]
  rw [ofFields_inj, operandBits_eq_zero]; tauto

/-- An `ord` byte that is not above 1. -/
theorem ordByte_le_one (o : Byte) : ¬ (1 < o.toNat) ↔ (o = 0#8 ∨ o = 1#8) := by revert o; decide

/-- The operation bytes 1 to 4. -/
theorem operation_range (o : Byte) : (1 ≤ o.toNat ∧ o.toNat ≤ 4) ↔ (o = 1#8 ∨ o = 2#8 ∨ o = 3#8 ∨ o = 4#8) := by revert o; decide

end Sys2Proof
end

