-- ==== Sys2Proof/Laws/Generator.lean ====
section
/-!
SUPPORT. Which messages the generator refuses for their bounds, and what it does with the rest.
-/

namespace Sys2Proof.Machine

/-- The unconstrained strategy refuses no message (`43_host_sequences.md` R120). -/
@[simp] theorem outsideRules_of_random {cfg : GeneratorConfig} (m : MessageLayout) (h : cfg.randomPayload = true) :
    outsideRules cfg m = false := by simp [outsideRules, h]

/-- Nor does the range-based strategy refuse a message it does not support (R119). -/
@[simp] theorem outsideRules_of_oversize (cfg : GeneratorConfig) {m : MessageLayout} (h : 8 < m.size) :
    outsideRules cfg m = false := by simp [outsideRules, Nat.not_le.mpr h]

/-- What is refused: a message of the range-based strategy with a signal whose bounds are out of order (V10). -/
theorem outsideRules_iff (cfg : GeneratorConfig) (m : MessageLayout) :
    outsideRules cfg m = true ↔
      cfg.randomPayload = false ∧ m.size ≤ 8 ∧ ∃ sig ∈ m.signals, fle sig.minimum sig.maximum = false := by
  simp [outsideRules, and_assoc]

/-- A message outside the rules is refused, whatever the block and the random source are. -/
theorem generateMessage_refused {cfg : GeneratorConfig} {m : MessageLayout} (h : outsideRules cfg m = true)
    (r : Rand) (k : Nat) (s : State) : generateMessage r k cfg m s = .error .rangeViolation := by
  simp [generateMessage, h]

end Sys2Proof.Machine
end

