-- ==== Sys2Proof/Laws/Layout.lean ====
section
/-!
SUPPORT. What the host's narrowing of a layout's numbers to command bytes can do.
-/

namespace Sys2Proof.Machine

/-- The number in the byte: the layout's own up to 255, and 255 above it. -/
@[simp] theorem operandByte_toNat (n : Nat) : (operandByte n).toNat = min n 255 := by
  simp only [operandByte, BitVec.toNat_ofNat]; omega

/-- The command of a layout has a legal layout exactly where the layout itself fits the window. -/
theorem operandByte_fits (start len : Nat) :
    fieldFits (operandByte start).toNat (operandByte len).toNat ↔ fieldFits start len := by
  simp only [operandByte_toNat, fieldFits]; omega

/-- A number of a layout that fits goes into its command unchanged. -/
theorem operandByte_of_fits {start len : Nat} (h : fieldFits start len) :
    (operandByte start).toNat = start ∧ (operandByte len).toNat = len := by
  obtain ⟨_, _, _⟩ := h
  simp only [operandByte_toNat]; omega

end Sys2Proof.Machine
end

