-- ==== Sys2Proof/Laws/State.lean ====
section
/-!
SUPPORT. One lemma per field per update of State, true by definition, so that no proof unfolds an update.
-/

namespace Sys2Proof.Machine

@[simp] theorem State.setBuf_buf (s : State) (p : Payload) : (s.setBuf p).buf = p := rfl
@[simp] theorem State.setBuf_raw (s : State) (p : Payload) : (s.setBuf p).raw = s.raw := rfl
@[simp] theorem State.setBuf_phys (s : State) (p : Payload) : (s.setBuf p).phys = s.phys := rfl
@[simp] theorem State.setBuf_factor (s : State) (p : Payload) : (s.setBuf p).factor = s.factor := rfl
@[simp] theorem State.setBuf_offset (s : State) (p : Payload) : (s.setBuf p).offset = s.offset := rfl
@[simp] theorem State.setBuf_fault (s : State) (p : Payload) : (s.setBuf p).fault = s.fault := rfl
@[simp] theorem State.setBuf_cause (s : State) (p : Payload) : (s.setBuf p).cause = s.cause := rfl
@[simp] theorem State.setBuf_finfo (s : State) (p : Payload) : (s.setBuf p).finfo = s.finfo := rfl
@[simp] theorem State.setBuf_port (s : State) (p : Payload) : (s.setBuf p).port = s.port := rfl
@[simp] theorem State.setBuf_replies (s : State) (p : Payload) : (s.setBuf p).replies = s.replies := rfl
@[simp] theorem State.setBuf_nanDraws (s : State) (p : Payload) : (s.setBuf p).nanDraws = s.nanDraws := rfl

@[simp] theorem State.setRaw_buf (s : State) (v : Word) : (s.setRaw v).buf = s.buf := rfl
@[simp] theorem State.setRaw_raw (s : State) (v : Word) : (s.setRaw v).raw = v := rfl
@[simp] theorem State.setRaw_phys (s : State) (v : Word) : (s.setRaw v).phys = s.phys := rfl
@[simp] theorem State.setRaw_factor (s : State) (v : Word) : (s.setRaw v).factor = s.factor := rfl
@[simp] theorem State.setRaw_offset (s : State) (v : Word) : (s.setRaw v).offset = s.offset := rfl
@[simp] theorem State.setRaw_fault (s : State) (v : Word) : (s.setRaw v).fault = s.fault := rfl
@[simp] theorem State.setRaw_cause (s : State) (v : Word) : (s.setRaw v).cause = s.cause := rfl
@[simp] theorem State.setRaw_finfo (s : State) (v : Word) : (s.setRaw v).finfo = s.finfo := rfl
@[simp] theorem State.setRaw_port (s : State) (v : Word) : (s.setRaw v).port = s.port := rfl
@[simp] theorem State.setRaw_replies (s : State) (v : Word) : (s.setRaw v).replies = s.replies := rfl
@[simp] theorem State.setRaw_nanDraws (s : State) (v : Word) : (s.setRaw v).nanDraws = s.nanDraws := rfl

@[simp] theorem State.setPhys_buf (s : State) (v : Word) : (s.setPhys v).buf = s.buf := rfl
@[simp] theorem State.setPhys_raw (s : State) (v : Word) : (s.setPhys v).raw = s.raw := rfl
@[simp] theorem State.setPhys_phys (s : State) (v : Word) : (s.setPhys v).phys = v := rfl
@[simp] theorem State.setPhys_factor (s : State) (v : Word) : (s.setPhys v).factor = s.factor := rfl
@[simp] theorem State.setPhys_offset (s : State) (v : Word) : (s.setPhys v).offset = s.offset := rfl
@[simp] theorem State.setPhys_fault (s : State) (v : Word) : (s.setPhys v).fault = s.fault := rfl
@[simp] theorem State.setPhys_cause (s : State) (v : Word) : (s.setPhys v).cause = s.cause := rfl
@[simp] theorem State.setPhys_finfo (s : State) (v : Word) : (s.setPhys v).finfo = s.finfo := rfl
@[simp] theorem State.setPhys_port (s : State) (v : Word) : (s.setPhys v).port = s.port := rfl
@[simp] theorem State.setPhys_replies (s : State) (v : Word) : (s.setPhys v).replies = s.replies := rfl
@[simp] theorem State.setPhys_nanDraws (s : State) (v : Word) : (s.setPhys v).nanDraws = s.nanDraws := rfl

@[simp] theorem State.setFactor_buf (s : State) (v : Word) : (s.setFactor v).buf = s.buf := rfl
@[simp] theorem State.setFactor_raw (s : State) (v : Word) : (s.setFactor v).raw = s.raw := rfl
@[simp] theorem State.setFactor_phys (s : State) (v : Word) : (s.setFactor v).phys = s.phys := rfl
@[simp] theorem State.setFactor_factor (s : State) (v : Word) : (s.setFactor v).factor = v := rfl
@[simp] theorem State.setFactor_offset (s : State) (v : Word) : (s.setFactor v).offset = s.offset := rfl
@[simp] theorem State.setFactor_fault (s : State) (v : Word) : (s.setFactor v).fault = s.fault := rfl
@[simp] theorem State.setFactor_cause (s : State) (v : Word) : (s.setFactor v).cause = s.cause := rfl
@[simp] theorem State.setFactor_finfo (s : State) (v : Word) : (s.setFactor v).finfo = s.finfo := rfl
@[simp] theorem State.setFactor_port (s : State) (v : Word) : (s.setFactor v).port = s.port := rfl
@[simp] theorem State.setFactor_replies (s : State) (v : Word) : (s.setFactor v).replies = s.replies := rfl
@[simp] theorem State.setFactor_nanDraws (s : State) (v : Word) : (s.setFactor v).nanDraws = s.nanDraws := rfl

@[simp] theorem State.setOffset_buf (s : State) (v : Word) : (s.setOffset v).buf = s.buf := rfl
@[simp] theorem State.setOffset_raw (s : State) (v : Word) : (s.setOffset v).raw = s.raw := rfl
@[simp] theorem State.setOffset_phys (s : State) (v : Word) : (s.setOffset v).phys = s.phys := rfl
@[simp] theorem State.setOffset_factor (s : State) (v : Word) : (s.setOffset v).factor = s.factor := rfl
@[simp] theorem State.setOffset_offset (s : State) (v : Word) : (s.setOffset v).offset = v := rfl
@[simp] theorem State.setOffset_fault (s : State) (v : Word) : (s.setOffset v).fault = s.fault := rfl
@[simp] theorem State.setOffset_cause (s : State) (v : Word) : (s.setOffset v).cause = s.cause := rfl
@[simp] theorem State.setOffset_finfo (s : State) (v : Word) : (s.setOffset v).finfo = s.finfo := rfl
@[simp] theorem State.setOffset_port (s : State) (v : Word) : (s.setOffset v).port = s.port := rfl
@[simp] theorem State.setOffset_replies (s : State) (v : Word) : (s.setOffset v).replies = s.replies := rfl
@[simp] theorem State.setOffset_nanDraws (s : State) (v : Word) : (s.setOffset v).nanDraws = s.nanDraws := rfl

@[simp] theorem State.setPort_buf (s : State) (es : List HostEvent) : (s.setPort es).buf = s.buf := rfl
@[simp] theorem State.setPort_raw (s : State) (es : List HostEvent) : (s.setPort es).raw = s.raw := rfl
@[simp] theorem State.setPort_phys (s : State) (es : List HostEvent) : (s.setPort es).phys = s.phys := rfl
@[simp] theorem State.setPort_factor (s : State) (es : List HostEvent) : (s.setPort es).factor = s.factor := rfl
@[simp] theorem State.setPort_offset (s : State) (es : List HostEvent) : (s.setPort es).offset = s.offset := rfl
@[simp] theorem State.setPort_fault (s : State) (es : List HostEvent) : (s.setPort es).fault = s.fault := rfl
@[simp] theorem State.setPort_cause (s : State) (es : List HostEvent) : (s.setPort es).cause = s.cause := rfl
@[simp] theorem State.setPort_finfo (s : State) (es : List HostEvent) : (s.setPort es).finfo = s.finfo := rfl
@[simp] theorem State.setPort_port (s : State) (es : List HostEvent) : (s.setPort es).port = es := rfl
@[simp] theorem State.setPort_replies (s : State) (es : List HostEvent) : (s.setPort es).replies = s.replies := rfl
@[simp] theorem State.setPort_nanDraws (s : State) (es : List HostEvent) : (s.setPort es).nanDraws = s.nanDraws := rfl

@[simp] theorem State.pushReply_buf (s : State) (v : Word) : (s.pushReply v).buf = s.buf := rfl
@[simp] theorem State.pushReply_raw (s : State) (v : Word) : (s.pushReply v).raw = s.raw := rfl
@[simp] theorem State.pushReply_phys (s : State) (v : Word) : (s.pushReply v).phys = s.phys := rfl
@[simp] theorem State.pushReply_factor (s : State) (v : Word) : (s.pushReply v).factor = s.factor := rfl
@[simp] theorem State.pushReply_offset (s : State) (v : Word) : (s.pushReply v).offset = s.offset := rfl
@[simp] theorem State.pushReply_fault (s : State) (v : Word) : (s.pushReply v).fault = s.fault := rfl
@[simp] theorem State.pushReply_cause (s : State) (v : Word) : (s.pushReply v).cause = s.cause := rfl
@[simp] theorem State.pushReply_finfo (s : State) (v : Word) : (s.pushReply v).finfo = s.finfo := rfl
@[simp] theorem State.pushReply_port (s : State) (v : Word) : (s.pushReply v).port = s.port := rfl
@[simp] theorem State.pushReply_replies (s : State) (v : Word) : (s.pushReply v).replies = s.replies ++ [v] := rfl
@[simp] theorem State.pushReply_nanDraws (s : State) (v : Word) : (s.pushReply v).nanDraws = s.nanDraws := rfl

@[simp] theorem State.setRecord_buf (s : State) (b : Bool) (c : Cause) (d : Word) : (s.setRecord b c d).buf = s.buf := rfl
@[simp] theorem State.setRecord_raw (s : State) (b : Bool) (c : Cause) (d : Word) : (s.setRecord b c d).raw = s.raw := rfl
@[simp] theorem State.setRecord_phys (s : State) (b : Bool) (c : Cause) (d : Word) : (s.setRecord b c d).phys = s.phys := rfl
@[simp] theorem State.setRecord_factor (s : State) (b : Bool) (c : Cause) (d : Word) : (s.setRecord b c d).factor = s.factor := rfl
@[simp] theorem State.setRecord_offset (s : State) (b : Bool) (c : Cause) (d : Word) : (s.setRecord b c d).offset = s.offset := rfl
@[simp] theorem State.setRecord_fault (s : State) (b : Bool) (c : Cause) (d : Word) : (s.setRecord b c d).fault = b := rfl
@[simp] theorem State.setRecord_cause (s : State) (b : Bool) (c : Cause) (d : Word) : (s.setRecord b c d).cause = c := rfl
@[simp] theorem State.setRecord_finfo (s : State) (b : Bool) (c : Cause) (d : Word) : (s.setRecord b c d).finfo = d := rfl
@[simp] theorem State.setRecord_port (s : State) (b : Bool) (c : Cause) (d : Word) : (s.setRecord b c d).port = s.port := rfl
@[simp] theorem State.setRecord_replies (s : State) (b : Bool) (c : Cause) (d : Word) : (s.setRecord b c d).replies = s.replies := rfl
@[simp] theorem State.setRecord_nanDraws (s : State) (b : Bool) (c : Cause) (d : Word) : (s.setRecord b c d).nanDraws = s.nanDraws := rfl

@[simp] theorem State.takeNanDraw_buf (s : State) : s.takeNanDraw.buf = s.buf := rfl
@[simp] theorem State.takeNanDraw_raw (s : State) : s.takeNanDraw.raw = s.raw := rfl
@[simp] theorem State.takeNanDraw_phys (s : State) : s.takeNanDraw.phys = s.phys := rfl
@[simp] theorem State.takeNanDraw_factor (s : State) : s.takeNanDraw.factor = s.factor := rfl
@[simp] theorem State.takeNanDraw_offset (s : State) : s.takeNanDraw.offset = s.offset := rfl
@[simp] theorem State.takeNanDraw_fault (s : State) : s.takeNanDraw.fault = s.fault := rfl
@[simp] theorem State.takeNanDraw_cause (s : State) : s.takeNanDraw.cause = s.cause := rfl
@[simp] theorem State.takeNanDraw_finfo (s : State) : s.takeNanDraw.finfo = s.finfo := rfl
@[simp] theorem State.takeNanDraw_port (s : State) : s.takeNanDraw.port = s.port := rfl
@[simp] theorem State.takeNanDraw_replies (s : State) : s.takeNanDraw.replies = s.replies := rfl
@[simp] theorem State.takeNanDraw_nanDraws (s : State) : s.takeNanDraw.nanDraws = s.nanDraws + 1 := rfl

@[simp] theorem resetRegisters_buf (s : State) : (resetRegisters s).buf = State.reset.buf := rfl
@[simp] theorem resetRegisters_raw (s : State) : (resetRegisters s).raw = State.reset.raw := rfl
@[simp] theorem resetRegisters_phys (s : State) : (resetRegisters s).phys = State.reset.phys := rfl
@[simp] theorem resetRegisters_factor (s : State) : (resetRegisters s).factor = State.reset.factor := rfl
@[simp] theorem resetRegisters_offset (s : State) : (resetRegisters s).offset = State.reset.offset := rfl
@[simp] theorem resetRegisters_fault (s : State) : (resetRegisters s).fault = State.reset.fault := rfl
@[simp] theorem resetRegisters_cause (s : State) : (resetRegisters s).cause = State.reset.cause := rfl
@[simp] theorem resetRegisters_finfo (s : State) : (resetRegisters s).finfo = State.reset.finfo := rfl
@[simp] theorem resetRegisters_port (s : State) : (resetRegisters s).port = s.port := rfl
@[simp] theorem resetRegisters_replies (s : State) : (resetRegisters s).replies = s.replies := rfl
@[simp] theorem resetRegisters_nanDraws (s : State) : (resetRegisters s).nanDraws = s.nanDraws := rfl

/-- Two states are equal when their fields are. -/
theorem State.ext_fields {s t : State} (h0 : s.buf = t.buf) (h1 : s.raw = t.raw) (h2 : s.phys = t.phys) (h3 : s.factor = t.factor) (h4 : s.offset = t.offset) (h5 : s.fault = t.fault) (h6 : s.cause = t.cause) (h7 : s.finfo = t.finfo) (h8 : s.port = t.port) (h9 : s.replies = t.replies) (h10 : s.nanDraws = t.nanDraws) : s = t := by
  cases s; cases t; simp_all

end Sys2Proof.Machine
end

