-- ==== Sys2Proof/Laws/Ops.lean ====
section
/-!
SUPPORT. What each shared operation can do, said once: the gate of a command, a refused command, a write to a
register.
-/

namespace Sys2Proof.Machine

/-- The gate of a command always answers a next state, and which one. -/
theorem runCommand_eq (d : Word) (r : Option State) (s : State) :
    runCommand d r s = .next (if s.fault then s else r.getD (raiseFault .layoutViolation d s)) := by
  unfold runCommand
  cases s.fault <;> cases r <;> simp

/-- A command is discarded while a fault is recorded. -/
theorem runCommand_faulted {d : Word} {r : Option State} {s : State} (h : s.fault = true) :
    runCommand d r s = .next s := by simp [runCommand, h]

/-- A command with a result takes it when no fault is recorded. -/
theorem runCommand_some {d : Word} {t s : State} (h : s.fault = false) :
    runCommand d (some t) s = .next t := by simp [runCommand, h]

/-- A command without a result raises LayoutViolation when no fault is recorded. -/
theorem runCommand_none {d : Word} {s : State} (h : s.fault = false) :
    runCommand d none s = .next (raiseFault .layoutViolation d s) := by simp [runCommand, h]

/-- Everything the gate can do: discard, take the command's result, or raise LayoutViolation. -/
theorem runCommand_cases {d : Word} {r : Option State} {s t : State} (h : runCommand d r s = .next t) :
    (s.fault = true ∧ t = s) ∨ (s.fault = false ∧ r = some t) ∨
      (s.fault = false ∧ r = none ∧ t = raiseFault .layoutViolation d s) := by
  rw [runCommand_eq] at h
  cases hf : s.fault <;> cases r <;> simp_all

/-- Everything a refused command can do: nothing, or record the fault. -/
theorem refuseCommand_cases (c : Cause) (d : Word) (s : State) :
    (s.fault = true ∧ refuseCommand c d s = s) ∨
      (s.fault = false ∧ refuseCommand c d s = raiseFault c d s) := by
  unfold refuseCommand
  cases h : s.fault <;> simp

/-- A write to STATUS clears the record or does nothing. -/
theorem writeStatus_cases (d : Word) (s : State) :
    (clearsFault d = true ∧ writeStatus d s = clearFault s) ∨
      (clearsFault d = false ∧ writeStatus d s = s) := by
  unfold writeStatus
  cases h : clearsFault d <;> simp

/-- A host write to a register leaves the host's side of the port and the draws alone. -/
theorem writeReg_hostSide (s : State) (r : Reg) (d : Word) :
    (s.writeReg r d).port = s.port ∧ (s.writeReg r d).replies = s.replies ∧
      (s.writeReg r d).nanDraws = s.nanDraws := by
  cases r <;> simp [State.writeReg, writeStatus, clearFault]
  split <;> simp

/-- A register's index names it. -/
@[simp] theorem Reg.ofIndex_index (r : Reg) : Reg.ofIndex r.index = r := by cases r <;> rfl

/-- The indices 0 to 7 and the eight registers correspond. -/
@[simp] theorem Reg.index_ofIndex (i : Fin 8) : (Reg.ofIndex i).index = i := by decide +revert

end Sys2Proof.Machine
end

