-- ==== Sys2Proof/Laws/PerInstr.lean ====
section
/-!
SUPPORT. The law of every command's word: its operation byte is the command's (`30_encoding.md` R52), its upper
half is zero (R50), and a command without operands has none in its word (R54).
-/

namespace Sys2Proof.Laws.OpcodeByte

/-- The operation byte of R52. -/
def operation : Instr → Byte
  | .extract _ _ _ => 1#8
  | .inject _ _ _ => 2#8
  | .tophys => 3#8
  | .toraw => 4#8

/-- The three operand bytes `start`, `len`, `ord` of R50. -/
def operands : Instr → Byte × Byte × Byte
  | .extract start len ord => (start, len, ordByte ord)
  | .inject start len ord => (start, len, ordByte ord)
  | .tophys => (0#8, 0#8, 0#8)
  | .toraw => (0#8, 0#8, 0#8)

/-- Every field of a command's word is the one R50 to R52 give it. -/
def Statement (i : Instr) : Prop :=
  opField (encode i) = operation i ∧ upperField (encode i) = 0#32 ∧
    (startField (encode i), lenField (encode i), ordField (encode i)) = operands i

theorem extract (start len : Byte) (ord : ByteOrder) : Statement (.extract start len ord) := by
  simp [Statement, encode, operation, operands]

theorem inject (start len : Byte) (ord : ByteOrder) : Statement (.inject start len ord) := by
  simp [Statement, encode, operation, operands]

theorem tophys : Statement .tophys := by
  simp [Statement, encode, operation, operands]

theorem toraw : Statement .toraw := by
  simp [Statement, encode, operation, operands]

end Sys2Proof.Laws.OpcodeByte
end

