-- ==== Sys2Proof/Laws/Step.lean ====
section
/-!
SUPPORT. What a command, a presented word and a step can do, said once for all.
-/

namespace Sys2Proof.Machine

/-- `extract` has a value exactly where the layout condition holds (`40_bitfield.md` R75). -/
theorem extract_isSome (p : Payload) (start len : Nat) (ord : ByteOrder) :
    (extract p start len ord).isSome ↔ fieldFits start len := by
  unfold extract; split <;> rename_i h <;> simpa using h

/-- `inject` has a value exactly where the layout condition holds. -/
theorem inject_isSome (p : Payload) (start len : Nat) (ord : ByteOrder) (v : Word) :
    (inject p start len ord v).isSome ↔ fieldFits start len := by
  unfold inject; split <;> rename_i h <;> simpa using h

/-- The layout check of the syntax is the one the codec computes with. -/
theorem wellFormed_extract (start len : Byte) (ord : ByteOrder) :
    (Instr.extract start len ord).WellFormed ↔ fieldFits start.toNat len.toNat := by
  simp [Instr.WellFormed, Instr.wellFormed, fieldFits, and_assoc]

theorem wellFormed_inject (start len : Byte) (ord : ByteOrder) :
    (Instr.inject start len ord).WellFormed ↔ fieldFits start.toNat len.toNat := by
  simp [Instr.WellFormed, Instr.wellFormed, fieldFits, and_assoc]

/-- What a command does when it is executed and its layout is legal. -/
def effect (i : Instr) (s : State) : State :=
  match i with
  | .extract start len ord => s.setRaw (fieldOf (assemble s.buf ord) start.toNat len.toNat)
  | .inject start len ord =>
    s.setBuf (serialize (assemble s.buf ord ||| fieldBits s.raw start.toNat len.toNat) ord)
  | .tophys => (s.setPhys (toPhysical s.numerics s.raw s.factor s.offset)).takeNanDraw
  | .toraw => s.setRaw (toRaw s.numerics s.phys s.factor s.offset)

/-! ## What no command's effect touches -/

@[simp] theorem effect_port (i : Instr) (s : State) : (effect i s).port = s.port := by cases i <;> rfl
@[simp] theorem effect_replies (i : Instr) (s : State) : (effect i s).replies = s.replies := by cases i <;> rfl
@[simp] theorem effect_fault (i : Instr) (s : State) : (effect i s).fault = s.fault := by cases i <;> rfl
@[simp] theorem effect_cause (i : Instr) (s : State) : (effect i s).cause = s.cause := by cases i <;> rfl
@[simp] theorem effect_finfo (i : Instr) (s : State) : (effect i s).finfo = s.finfo := by cases i <;> rfl
@[simp] theorem effect_factor (i : Instr) (s : State) : (effect i s).factor = s.factor := by cases i <;> rfl
@[simp] theorem effect_offset (i : Instr) (s : State) : (effect i s).offset = s.offset := by cases i <;> rfl

/-- `exec` in one line: discard, effect, or LayoutViolation with the command's own word. -/
theorem exec_eq (i : Instr) (s : State) :
    exec i s = .next (if s.fault then s else if i.WellFormed then effect i s
      else raiseFault .layoutViolation (encode i) s) := by
  cases i with
  | extract start len ord =>
    simp only [exec, execExtract, runCommand_eq, extract, State.memRead, wellFormed_extract, effect]
    by_cases hf : fieldFits start.toNat len.toNat <;> simp [hf]
  | inject start len ord =>
    simp only [exec, execInject, runCommand_eq, inject, State.memRead, wellFormed_inject, effect]
    by_cases hf : fieldFits start.toNat len.toNat <;> simp [hf, State.memWrite]
  | tophys => simp [exec, execTophys, runCommand_eq, effect, Instr.WellFormed, Instr.wellFormed]
  | toraw => simp [exec, execToraw, runCommand_eq, effect, Instr.WellFormed, Instr.wellFormed]

/-- Everything `exec` can do. -/
theorem exec_cases {i : Instr} {s t : State} (h : exec i s = .next t) :
    (s.fault = true ∧ t = s) ∨ (s.fault = false ∧ i.WellFormed ∧ t = effect i s) ∨
      (s.fault = false ∧ ¬ i.WellFormed ∧ t = raiseFault .layoutViolation (encode i) s) := by
  rw [exec_eq] at h
  cases hf : s.fault <;> by_cases hw : i.WellFormed <;> simp_all

/-- Everything a word presented to CMD can do (`30_encoding.md` R56). -/
theorem presentCommand_cases {d : Word} {s t : State} (h : presentCommand d s = .next t) :
    (∃ i, decode d = .ok i ∧ exec i s = .next t) ∨
      (∃ why, decode d = .error why ∧ t = refuseCommand .illegalCommand d s) := by
  unfold presentCommand at h
  cases hd : decode d with
  | ok i => left; rw [hd] at h; exact ⟨i, rfl, h⟩
  | error why => right; rw [hd] at h; simp at h; exact ⟨why, rfl, h.symm⟩

/-- An idle block: a step changes nothing. -/
theorem step_idle {s : State} (h : s.port = []) : step s = .next s := by
  simp [step, nextEvent, h]

/-- A step performs the oldest event at the port. -/
theorem step_event {s : State} {e : HostEvent} {rest : List HostEvent} (h : s.port = e :: rest) :
    step s = performEvent e (s.setPort rest) := by
  simp [step, nextEvent, h]

/-- The step after a command is placed performs its write, on the state without it. -/
theorem step_placeCommand (s : State) (w : Word) : step (placeCommand s w) = presentCommand w s := rfl

/-- Everything placing a word of the opcode table's numbering can do. -/
theorem withFetchWord_cases (s : State) (nbits w : Nat) :
    (w % 2 ^ nbits < 2 ^ 64 ∧ s.withFetchWord nbits w = placeCommand s (BitVec.ofNat 64 (w % 2 ^ nbits))) ∨
      (2 ^ 64 ≤ w % 2 ^ nbits ∧ s.withFetchWord nbits w = s) := by
  unfold State.withFetchWord placeTableWord
  split
  · exact .inl ⟨‹_›, rfl⟩
  · exact .inr ⟨Nat.le_of_not_lt ‹_›, rfl⟩

/-- Everything an event can do. -/
theorem performEvent_cases {e : HostEvent} {s t : State} (h : performEvent e s = .next t) :
    (∃ r, e = .rd r ∧ t = s.pushReply (s.readReg r)) ∨ (e = .reset ∧ t = resetRegisters s) ∨
      (∃ d, e = .wr .cmd d ∧ presentCommand d s = .next t) ∨
      (∃ r d, e = .wr r d ∧ r ≠ .cmd ∧ t = s.writeReg r d) := by
  cases e with
  | rd r => left; simp [performEvent] at h; exact ⟨r, rfl, h.symm⟩
  | reset => right; left; simp [performEvent] at h; exact ⟨rfl, h.symm⟩
  | wr r d =>
    cases r with
    | cmd => right; right; left; exact ⟨d, rfl, h⟩
    | _ => right; right; right; simp [performEvent] at h; exact ⟨_, d, rfl, by simp, h.symm⟩

end Sys2Proof.Machine
end

