-- ==== Sys2Proof/Tests/Slice0.lean ====
section
/-!
SUPPORT. The model's own tests: one step each, expected values from spec/95_test_vectors.md and the encodings of
30_encoding.md; and for each statement with hypotheses a witness that meets them.
-/

namespace Sys2Proof.Tests

open Sys2Proof Sys2Proof.Machine Sys2Proof.Safety

/-- The next state, if there is one. -/
def after (o : Host.Outcome State Fault Refusal) : Option State :=
  match o with
  | .next t => some t
  | .fault _ => none
  | .refused _ => none

/-- The reset state with registers a test chooses. -/
def board (buf raw phys factor offset : Word) : State :=
  { State.reset with buf := unpackBuf buf, raw := raw, phys := phys, factor := factor, offset := offset }

/-- The reset state with events at the port. -/
def atPort (es : List HostEvent) : State := { State.reset with port := es }

/-- A state with the fault of vector F12 recorded. -/
def faulted (es : List HostEvent) : State :=
  { State.reset with fault := true, cause := .layoutViolation, finfo := 0x41000001#64, port := es }

/-! ## The layout check refuses (30_encoding.md R53) -/

theorem test_layout_len_zero : (Instr.extract 0#8 0#8 .little).wellFormed = false := by decide
theorem test_layout_len_65 : (Instr.inject 0#8 65#8 .big).wellFormed = false := by decide
theorem test_layout_sum_65 : (Instr.extract 60#8 5#8 .little).wellFormed = false := by decide
theorem test_layout_sum_64 : (Instr.extract 60#8 4#8 .little).wellFormed = true := by decide

/-! ## Decoding, words written out from R50: upper half, len, start, ord, op -/

theorem test_decode_extract :
    decode (0#32 ++ 20#8 ++ 12#8 ++ 1#8 ++ 1#8) = .ok (.extract 12#8 20#8 .big) := by decide
theorem test_decode_inject :
    decode (0#32 ++ 4#8 ++ 8#8 ++ 0#8 ++ 2#8) = .ok (.inject 8#8 4#8 .little) := by decide
theorem test_decode_tophys : decode (0#32 ++ 0#8 ++ 0#8 ++ 0#8 ++ 3#8) = .ok .tophys := by decide
theorem test_decode_toraw : decode (0#32 ++ 0#8 ++ 0#8 ++ 0#8 ++ 4#8) = .ok .toraw := by decide
/-- R55's four ways to be no command: vectors F4, F2, F6, F7. -/
theorem test_decode_rejects :
    decode 0x100000001#64 = .error .upperHalf ∧ decode 5#64 = .error .operation ∧
    decode 0x8000201#64 = .error .byteOrder ∧ decode 0x103#64 = .error .operands := by decide
/-- The worked encodings of R57. -/
theorem test_encode_words :
    encode (.extract 4#8 12#8 .big) = 0xC040101#64 ∧ encode (.inject 8#8 4#8 .little) = 0x4080002#64 ∧
    encode .tophys = 3#64 ∧ encode .toraw = 4#64 := by decide
theorem test_table_word : decodeTableWord 64 0x13F0101 = some (.extract 63#8 1#8 .big) := by decide

/-! ## The commands -/

/-- E14: `EXTRACT 12, 20, BE`. -/
theorem test_extract_big :
    (after (exec (.extract 12#8 20#8 .big) (board 0x0123456789ABCDEF#64 0#64 0#64 0#64 0#64))).map (·.raw) =
      some 0x67452#64 := by decide
/-- E20: `EXTRACT 31, 33, LE`, the upper bits of RAW written zero. -/
theorem test_extract_little :
    (after (exec (.extract 31#8 33#8 .little)
      (board 0x0123456789ABCDEF#64 0xFFFFFFFFFFFFFFFF#64 0#64 0#64 0#64))).map (·.raw) = some 0x2468ACF#64 := by decide
/-- I5: `INJECT 12, 16, BE`. -/
theorem test_inject_big :
    (after (exec (.inject 12#8 16#8 .big) (board 0#64 0xBEEF#64 0#64 0#64 0#64))).map (fun t => packBuf t.buf) =
      some 0x00F0EE0B00000000#64 := by decide
/-- I15: the field is ORed, not replaced. -/
theorem test_inject_merges :
    (after (exec (.inject 0#8 8#8 .little) (board 0xA5#64 0x3C#64 0#64 0#64 0#64))).map (fun t => packBuf t.buf) =
      some 0xBD#64 := by decide
/-- T2: `4 * 0.1 - 5 = -4.6`. -/
theorem test_tophys_scales :
    (after (exec .tophys (board 0#64 4#64 0#64 0x3FB999999999999A#64 0xC014000000000000#64))).map (·.phys) =
      some 0xC012666666666666#64 := by decide +kernel
/-- T10: `u2f` ties to even. -/
theorem test_tophys_tie :
    (after (exec .tophys (board 0#64 0x20000000000003#64 0#64 0x3FF0000000000000#64 0#64))).map (·.phys) =
      some 0x4340000000000002#64 := by decide +kernel
/-- W3: 0.3 / 0.1 truncates to 2. -/
theorem test_toraw_truncates :
    (after (exec .toraw (board 0#64 0#64 0x3FD3333333333333#64 0x3FB999999999999A#64 0#64))).map (·.raw) =
      some 2#64 := by decide +kernel
/-- W25: overflow of the quotient saturates. -/
theorem test_toraw_saturates :
    (after (exec .toraw (board 0#64 0#64 0x7E37E43C8800759C#64 0x01A56E1FC2F8F359#64 0#64))).map (·.raw) =
      some 0xFFFFFFFFFFFFFFFF#64 := by decide +kernel

/-! ## Numerics: a subnormal product, and a sum that cancels -/

/-- R91, gradual underflow: half of the smallest normal number is subnormal. -/
theorem test_fmul_subnormal :
    fmul 0x7FF8000000000000#64 0x0010000000000000#64 0x3FE0000000000000#64 = 0x0008000000000000#64 := by decide +kernel
/-- W4's difference: -4.6 - (-5.0). -/
theorem test_fsub_cancels :
    fsub 0x7FF8000000000000#64 0xC012666666666666#64 0xC014000000000000#64 = 0x3FD99999999999A0#64 := by decide +kernel
/-- `f64(0.1)` and `f64(-4.6)`. -/
theorem test_float_literal :
    floatLiteral false 1 10 = 0x3FB999999999999A#64 ∧ floatLiteral true 46 10 = 0xC012666666666666#64 := by
  decide +kernel

/-! ## The port and the fault record -/

/-- F17: STATUS and FINFO after `EXTRACT 60, 5, LE`. -/
theorem test_fault_layout :
    (after (step (atPort [.wr .cmd 0x53C0001#64]))).map (fun t => (t.readReg .status, t.readReg .finfo)) =
      some (0x201#64, 0x53C0001#64) := by decide
/-- F10: IllegalCommand wins over an illegal layout (R143). -/
theorem test_fault_priority :
    (after (step (atPort [.wr .cmd 0x41000201#64]))).map (fun t => (t.readReg .status, t.readReg .finfo)) =
      some (0x101#64, 0x41000201#64) := by decide
/-- P4 line 10: a legal command is discarded while a fault is recorded. -/
theorem test_fault_discards :
    (after (step (faulted [.wr .cmd 0x40000001#64]))).map (·.finfo) = some 0x41000001#64 := by decide
/-- P4 line 14: the clear. -/
theorem test_fault_clears :
    (after (step (faulted [.wr .status 1#64]))).map (fun t => (t.readReg .status, t.finfo)) = some (0#64, 0#64) := by
  decide
/-- Z1: reset. -/
theorem test_reset : (after (step (faulted [.reset]))) = some State.reset := by decide
/-- H2: the payload bytes of a write to BUF. -/
theorem test_write_buf :
    (after (step (atPort [.wr .buf 0x0123456789ABCDEF#64]))).map (fun t => (t.buf.b0, t.buf.b7)) =
      some (0xEF#8, 0x01#8) := by decide
/-- The next step runs a placed command: E1 on the reset payload. -/
theorem test_placed_command :
    (after (step ((board 0x0123456789ABCDEF#64 0#64 0#64 0#64 0#64).withFetchWord 64 0x40000101))).map (·.raw) =
      some 0xEFCDAB8967452301#64 := by decide

/-! ## The assembler and the host level -/

theorem test_parse_command :
    parseLine "EXTRACT 4, 12, BE ; a field".toList = some (.command (.extract 4#8 12#8 .big)) := by decide +kernel
theorem test_parse_value :
    parseLine "WR PHYS, f64(-4.6)".toList = some (.wr .phys 0xC012666666666666#64) := by decide +kernel
theorem test_parse_scale :
    parseLine "SCALE 0.01, -100.0".toList = some (.scale 0x3F847AE147AE147B#64 0xC059000000000000#64) := by
  decide +kernel
/-- A listing line of R57 with the value the read returned: the value is no part of the program. -/
theorem test_parse_listing : parseLine "RD RAW -> 0x2A ; read".toList = some (.rd .raw) := by decide +kernel
theorem test_parse_refuses : parseLine "INJECT 0, 256, LE".toList = none := by decide +kernel
theorem test_frame_padding : packBuf (framePayload [0x39#8, 0x30#8]) = 0x3039#64 := by decide

/-- Signal Speed of program P5. -/
def speed : SignalLayout where
  name := "Speed"
  start := 0
  length := 16
  order := .little
  factor := 0x3F847AE147AE147B#64
  offset := 0#64
  minimum := 0#64
  maximum := 0x406F400000000000#64

/-- Signal Gear of program P5. -/
def gear : SignalLayout where
  name := "Gear"
  start := 0
  length := 4
  order := .big
  factor := 0x3FF0000000000000#64
  offset := 0#64
  minimum := 0x4008000000000000#64
  maximum := 0x4008000000000000#64

/-- A message of both, of a given size. -/
def message (size : Nat) : MessageLayout where
  id := 0x123#32
  size := size
  transmitter := "ECU"
  signals := [speed, gear]

/-- P5, lines 3 and 10: 123.45 encodes to raw 0x3039. -/
theorem test_encode_signal :
    (after (performAll (encodeSignal speed 0x405EDCCCCCCCCCCD#64) State.reset)).map (fun t => packBuf t.buf) =
      some 0x3039#64 := by decide +kernel
/-- N19, V10: no generator result for a layout with minimum above maximum. -/
theorem test_generate_refuses :
    (match generateMessage ⟨fun _ _ => 0, fun _ _ _ => 0#64, fun _ => false⟩ 0 ⟨false, false, false, none⟩
        { message 8 with signals := [{ speed with maximum := 0xBFF0000000000000#64 }] } State.reset with
      | .error e => decide (e = .rangeViolation)
      | .ok _ => false) = true := by decide +kernel
/-- A start of 300 is refused by the block and not shortened to 44 (R36, R142). -/
theorem test_encode_unvalidated :
    (after (performAll (encodeSignal { speed with start := 300 } 0x405EDCCCCCCCCCCD#64) State.reset)).map
      (fun t => (t.readReg .status, packBuf t.buf)) = some (0x201#64, 0#64) := by decide +kernel
/-- A value wider than 64 bits is no command (R169). -/
theorem test_wide_word :
    decodeTableWord 72 (2 ^ 64 + 3) = none ∧ State.reset.withFetchWord 72 (2 ^ 64 + 3) = State.reset := by decide
theorem test_load_check :
    loadLayouts [{ message 8 with signals := [{ speed with start := 49 }] }] =
      .error (LoadError.layoutViolation "Speed") := by decide +kernel

/-! ## Witnesses: the hypotheses of each statement can be met, at a boundary of each clause where it has one -/

theorem witness_EncodeOfDecode : decode 0x40000102#64 = .ok (.inject 0#8 64#8 .big) ∧ decode 4#64 = .ok .toraw := by decide

/-- The four illegal cases at their boundaries, and the legal case. -/
theorem witness_IllegalCommandCondition :
    (atPort [.wr .cmd 1#64]).port = .wr .cmd 1#64 :: [] ∧ (atPort [.wr .cmd 1#64]).fault = false ∧
    (0x100000001#64 : Word).extractLsb' 32 32 ≠ 0#32 ∧
    ¬ (1 ≤ ((0#64 : Word).extractLsb' 0 8).toNat) ∧ ¬ (((5#64 : Word).extractLsb' 0 8).toNat ≤ 4) ∧
    1 < ((0x8000201#64 : Word).extractLsb' 8 8).toNat ∧ (0x103#64 : Word).extractLsb' 8 24 ≠ 0#24 ∧
    ¬ (1 < ((0x8000101#64 : Word).extractLsb' 8 8).toNat) := by decide

theorem witness_portWithCommand :
    (atPort [.wr .cmd 3#64, .rd .phys]).port = .wr .cmd 3#64 :: [.rd .phys] ∧ decode 3#64 = .ok .tophys := by decide

theorem witness_idle : State.reset.port = [] := by decide

theorem witness_ReadReturns :
    (atPort [.rd .status, .rd .status]).port = .rd .status :: [.rd .status] := by decide

theorem witness_WriteStores :
    (atPort [.wr .finfo 1#64]).port = .wr .finfo 1#64 :: [] ∧ (atPort [.wr .status 1#64]).port = .wr .status 1#64 :: [] := by
  decide

theorem witness_FaultCleared :
    (faulted [.wr .status 1#64, .wr .cmd (encode .toraw)]).port = .wr .status 1#64 :: [.wr .cmd (encode .toraw)] ∧
    (1#64 : Word).getLsbD 0 = true ∧ (0xFFFFFFFFFFFFFFFE#64 : Word).getLsbD 0 = false ∧ Instr.toraw.WellFormed := by decide

theorem witness_DiscardedWhileFaulted :
    (faulted [.wr .cmd 3#64]).fault = true ∧ (faulted [.wr .cmd 3#64]).port = .wr .cmd 3#64 :: [] ∧
    (faulted [.rd .raw]).port = .rd .raw :: [] ∧ (faulted [.wr .raw 5#64]).port = .wr .raw 5#64 :: [] ∧ Reg.raw ≠ .cmd := by
  decide

theorem witness_FaultEntry :
    (atPort [.wr .cmd 0#64]).fault = false ∧ decode 0#64 = .error .operation ∧
    decode 1#64 = .ok (.extract 0#8 0#8 .little) ∧ ¬ (Instr.extract 0#8 0#8 .little).WellFormed := by decide

/-- The three ways a layout does not fit, each at its boundary. -/
theorem witness_LayoutViolationTaken :
    State.reset.fault = false ∧ (0#8 : Byte) = 0#8 ∧ 64 < (65#8 : Byte).toNat ∧
    64 < (63#8 : Byte).toNat + (2#8 : Byte).toNat ∧
    (atPort [.wr .cmd (encode (.inject 63#8 2#8 .big))]).port = .wr .cmd (encode (.inject 63#8 2#8 .big)) :: [] := by
  decide

theorem witness_FaultStays :
    (faulted [.wr .status 2#64]).port = .wr .status 2#64 :: [] ∧ (faulted [.wr .status 2#64]).fault = true ∧
    HostEvent.wr .status 2#64 ≠ .reset ∧ (2#64 : Word).getLsbD 0 = false ∧
    (after (step (faulted [.wr .status 2#64]))).isSome = true := by decide

theorem witness_NothingElseFaults :
    (atPort [.wr .cmd 0#64]).fault = false ∧ (after (step (atPort [.wr .cmd 0#64]))).map (·.fault) = some true ∧
    (after (step (atPort [.wr .cmd 0x40000001#64]))).map (·.fault) = some false := by decide

theorem witness_ResetValues : (faulted [.reset]).port = .reset :: [] := by decide

theorem witness_FaultRecordKept :
    RecordConsistent (faulted [.wr .status 1#64]) ∧ (after (step (faulted [.wr .status 1#64]))).isSome = true ∧
    RecordConsistent (atPort [.wr .cmd 0#64]) := by decide

/-- Each register changed by a command or by a host write. -/
theorem witness_WritersOfRegisters :
    (after (step ((board 0#64 1#64 0#64 0#64 0#64).setPort [.wr .cmd (encode (.inject 63#8 1#8 .big))]))).map (·.buf) ≠
      some (unpackBuf 0#64) ∧
    (after (step ((board 1#64 0#64 0#64 0#64 0#64).setPort [.wr .cmd (encode (.extract 0#8 1#8 .little))]))).map (·.raw) ≠
      some 0#64 ∧
    (after (step (atPort [.wr .factor 0#64]))).map (·.factor) ≠ some State.reset.factor ∧
    (after (step (atPort [.wr .offset 1#64]))).map (·.offset) ≠ some State.reset.offset := by decide

theorem witness_WritersOfRegisters_phys :
    (after (step ((board 0#64 1#64 0#64 0x3FF0000000000000#64 0#64).setPort [.wr .cmd (encode .tophys)]))).map (·.phys) ≠
      some 0#64 := by decide +kernel

/-- Two states that agree on BUF and differ in RAW, for EXTRACT. -/
theorem witness_CommandInputs :
    (board 7#64 1#64 0#64 0#64 0#64).fault = false ∧ (board 7#64 2#64 0#64 0#64 0#64).fault = false ∧
    (Instr.extract 0#8 3#8 .little).WellFormed ∧
    (board 7#64 1#64 0#64 0#64 0#64).buf = (board 7#64 2#64 0#64 0#64 0#64).buf ∧
    (after (exec (.extract 0#8 3#8 .little) (board 7#64 1#64 0#64 0#64 0#64))).isSome = true ∧
    (after (exec (.extract 0#8 3#8 .little) (board 7#64 2#64 0#64 0#64 0#64))).isSome = true := by decide

/-- The other three commands: states that agree on the inputs and differ in all else. -/
theorem witness_CommandInputs_rest :
    (after (exec (.inject 63#8 1#8 .big) (board 7#64 1#64 2#64 3#64 4#64))).map (·.buf) =
      (after (exec (.inject 63#8 1#8 .big) (board 7#64 1#64 5#64 6#64 8#64))).map (·.buf) ∧
    (after (exec .tophys (board 7#64 1#64 2#64 0x3FF0000000000000#64 0#64))).map (·.phys) =
      (after (exec .tophys (board 9#64 1#64 5#64 0x3FF0000000000000#64 0#64))).map (·.phys) ∧
    (after (exec .toraw (board 7#64 1#64 2#64 0x3FF0000000000000#64 0#64))).map (·.raw) =
      (after (exec .toraw (board 9#64 6#64 2#64 0x3FF0000000000000#64 0#64))).map (·.raw) := by decide +kernel

/-- The two ends of the window, for EXTRACT and INJECT and the pure functions. -/
theorem witness_layoutFits :
    State.reset.fault = false ∧ fieldFits (0#8 : Byte).toNat (64#8 : Byte).toNat ∧
    fieldFits (63#8 : Byte).toNat (1#8 : Byte).toNat ∧ 1 ≤ (1#8 : Byte).toNat ∧ (64#8 : Byte).toNat ≤ 64 := by decide

theorem witness_frames :
    (after (exec (.extract 0#8 1#8 .big) State.reset)).isSome = true ∧
    (after (exec (.inject 8#8 4#8 .little) State.reset)).isSome = true ∧
    (Instr.inject 8#8 4#8 .little).WellFormed ∧ 8 * (0 : Fin 8).val + 8 ≤ (8#8 : Byte).toNat ∧
    (8#8 : Byte).toNat + (4#8 : Byte).toNat ≤ 8 * (2 : Fin 8).val := by decide

theorem witness_frames_converter :
    (after (exec .tophys State.reset)).isSome = true ∧ (after (exec .toraw State.reset)).isSome = true := by decide +kernel

theorem witness_InjectThenExtract :
    extract (unpackBuf 0#64) 8 4 .big = some 0#64 ∧ (inject (unpackBuf 0#64) 8 4 .big 15#64).isSome = true ∧
    (15#64 : Word).toNat < 2 ^ 4 := by decide

theorem witness_NonInterference :
    fieldFits 0 12 ∧ fieldFits 12 12 ∧ 0 + 12 ≤ 12 ∧ extract (unpackBuf 0#64) 0 12 .little = some 0#64 ∧
    extract (unpackBuf 0#64) 12 12 .little = some 0#64 ∧ (0xABC#64 : Word).toNat < 2 ^ 12 := by decide

theorem witness_TorawEffect : State.reset.fault = false ∧ isNaN 0x7FF8000000000000#64 = true := by decide

theorem witness_OperationsCorrectlyRounded :
    unpack 0x3FF0000000000000#64 = .finite false unitOne ∧
    unpack (fdiv 0#64 0x3FF0000000000000#64 0x3FF0000000000000#64) = .finite false unitOne ∧
    unpack (fmul 0#64 0x3FF0000000000000#64 0x3FF0000000000000#64) = .finite false unitOne ∧
    unpack (fsub 0#64 0x3FF0000000000000#64 0x3FF0000000000000#64) = .finite false 0 ∧ unitOne ≠ 0 := by decide +kernel

/-- Both sides of the overflow threshold: twice the largest finite binary64, and once. -/
theorem witness_OperationsCorrectlyRounded_overflow :
    unpack 0xFFEFFFFFFFFFFFFF#64 = .finite true ((2 ^ 53 - 1) * 2 ^ 2045) ∧
    overflowUnits * 1 ≤ |signedMag true ((2 ^ 53 - 1) * 2 ^ 2045) + signedMag true ((2 ^ 53 - 1) * 2 ^ 2045)| ∧
    unpack (fadd 0#64 0xFFEFFFFFFFFFFFFF#64 0xFFEFFFFFFFFFFFFF#64) = .infinite true ∧
    ¬ overflowUnits * 1 ≤ |signedMag true ((2 ^ 53 - 1) * 2 ^ 2045) + signedMag true 0| := by decide +kernel

/-- 2^53 + 1 units lies midway between 2^53 and 2^53 + 2. -/
theorem witness_TiesToEven :
    unpack (roundBits false (2 ^ 53 + 1) 1) = .finite false (2 ^ 53) ∧
    unpack 0x0020000000000001#64 = .finite false (2 ^ 53 + 2) := by decide +kernel

theorem witness_RepresentableIsExact :
    unpack 0x8000000000000001#64 = .finite true 1 ∧ unpack 0x8000000000000000#64 = .finite true 0 := by decide +kernel

theorem witness_SpecialCases :
    unpack 0x7FF8000000000000#64 = .nan ∧ unpack 0x8000000000000000#64 = .finite true 0 ∧
    unpack 0x7FF0000000000000#64 = .infinite false ∧ unpack 0xFFF0000000000000#64 = .infinite true ∧
    unpack 1#64 = .finite false 1 := by decide +kernel

theorem witness_ProducedNanPattern :
    unpack (fmul 0x7FF8000000000000#64 0#64 0x7FF0000000000000#64) = .nan ∧
    unpack (fadd 0x7FF8000000000000#64 0xFFF0000000000000#64 0x7FF0000000000000#64) = .nan ∧
    unpack (fsub 0x7FF8000000000000#64 0x7FF0000000000000#64 0x7FF0000000000000#64) = .nan ∧
    unpack (fdiv 0x7FF8000000000000#64 0#64 0#64) = .nan := by decide +kernel

theorem witness_UnsignedToFloat :
    2 ^ 53 - 1 < 2 ^ 53 ∧ (0xFFFFFFFFFFFFF800#64 : Word).toNat = (2 ^ 53 - 1) * 2 ^ 11 ∧
    2 ^ 64 - 2 ^ 10 ≤ (0xFFFFFFFFFFFFFC00#64 : Word).toNat := by decide

/-- Each class of `f2u`, with both sides of 2^64. -/
theorem witness_FloatToUnsigned :
    unpack 0x43EFFFFFFFFFFFFF#64 = .finite false (unitOne * (2 ^ 64 - 2 ^ 11)) ∧
    unpack 0x43F0000000000000#64 = .finite false (unitOne * 2 ^ 64) ∧
    unpack 0xBFF0000000000000#64 = .finite true unitOne ∧ unpack 0x7FF0000000000000#64 = .infinite false ∧
    unpack 0x7FF8000000000000#64 = .nan := by decide +kernel

theorem witness_ZeroFactor :
    isNaN 0x7FF8000000000000#64 = true ∧ isNaN 0x8000000000000000#64 = false ∧ isNaN 0xFFF0000000000001#64 = true := by decide

theorem witness_OverflowThreshold :
    unpack (roundBits false ((2 ^ 54 - 1) * 2 ^ 2044) 1) = .infinite false ∧
    unpack (roundBits true ((2 ^ 54 - 1) * 2 ^ 2044 - 1) 1) = .finite true ((2 ^ 53 - 1) * 2 ^ 2045) := by decide +kernel

theorem witness_MaskValue : 1 ≤ 1 ∧ 1 ≤ 64 ∧ (mask 63).getLsbD 62 = true ∧ (mask 63).getLsbD 63 = false := by decide

theorem witness_IdentityScaling :
    (0xFFFFFFFFFFFFF800#64 : Word).toNat = (2 ^ 53 - 1) * 2 ^ 11 ∧
    toRaw (ieee 0x7FF8000000000000#64) (u2f 0xFFFFFFFFFFFFF800#64) State.reset.factor State.reset.offset =
      0xFFFFFFFFFFFFF800#64 := by decide +kernel

theorem witness_RunIsSteps :
    (after (performAll [.wr .raw 5#64, .rd .raw, .reset] State.reset)).map (·.replies) = some [5#64] := by decide

theorem witness_OversizeMessage :
    8 < (message 9).size ∧
    ({ randomPayload := false, allowRemoteFrames := true, allowErrorFrames := false, transmitterFilter := none } :
      GeneratorConfig).randomPayload = false := by decide

theorem witness_GoodRun :
    [HostEvent.wr .cmd 0x40000001#64] = [] ++ .wr .cmd 0x40000001#64 :: [] ∧
    [HostEvent.wr .cmd 0x40000001#64].all (fun e => !acknowledges e) = true ∧
    (after (performAll [.wr .cmd 0x40000001#64] State.reset)).map (·.fault) = some false := by decide

theorem witness_BlocksIndependent :
    (match performOn 1 (.wr .raw 5#64) [State.reset, State.reset] with
      | .next bs => bs.map (·.raw)
      | _ => []) = [0#64, 5#64] := by decide

theorem witness_PseudoOperations : ¬ (Instr.extract 60#8 5#8 .little).WellFormed := by decide

theorem witness_LoadCheck : loadLayouts [message 8] = .ok [message 8] := by decide +kernel

/-- A layout that fits, and the two ways past the window: by one bit, and past a byte. -/
theorem witness_EncodeSignal :
    State.reset.fault = false ∧ fieldFits speed.start speed.length ∧ fieldFits gear.start gear.length ∧
    ¬ fieldFits ({ speed with start := 49 } : SignalLayout).start speed.length ∧
    ¬ fieldFits ({ speed with start := 300 } : SignalLayout).start speed.length := by decide

theorem witness_DecodeFrame :
    lookupLayout 0x80000000#32 [message 8] 0x80000123#32 = some (message 8) ∧ (message 8).size ≤ 8 ∧
    (∀ sig ∈ (message 8).signals, fieldFits sig.start sig.length) := by decide

theorem witness_DecodeErrors :
    (∀ m ∈ [message 8], m.id &&& ~~~0x80000000#32 ≠ 0x124#32 &&& ~~~0x80000000#32) ∧
    lookupLayout 0x80000000#32 [message 9] 0x123#32 = some (message 9) ∧ 8 < (message 9).size := by decide

theorem witness_SignalOrderIrrelevant :
    [(speed, 0#64), (gear, 1#64)].Perm [(gear, 1#64), (speed, 0#64)] ∧
    ∀ c ∈ [(speed, (0#64 : Word)), (gear, 1#64)], fieldFits c.1.start c.1.length := by
  constructor
  · exact List.Perm.swap ..
  · decide

theorem witness_RangeContainment :
    fle speed.minimum speed.maximum = true ∧ fle gear.minimum gear.maximum = true ∧
    feq gear.minimum gear.maximum = true := by decide +kernel

/-- A message of the range-based strategy with one signal whose bounds are out of order, and one with a NaN bound. -/
theorem witness_RangeContainment_refused :
    (⟨false, false, false, none⟩ : GeneratorConfig).randomPayload = false ∧ (message 8).size ≤ 8 ∧
    fle 0#64 0xBFF0000000000000#64 = false ∧ fle 0x7FF8000000000000#64 0#64 = false := by decide +kernel

theorem witness_strategies :
    8 < (message 9).size ∧
    ({ randomPayload := true, allowRemoteFrames := false, allowErrorFrames := false, transmitterFilter := none } :
      GeneratorConfig).randomPayload = true := by decide

end Sys2Proof.Tests
end

section
/-!
PROOFS. The command word and its command determine each other (`30_encoding.md` R50 to R57).
-/

namespace Sys2Proof.Machine

/-- The byte of a byte order is one the format F rows accept (`30_encoding.md` R51, R52). -/
theorem ordByte_eq_zero_or_one (o : ByteOrder) : ordByte o = 0#8 ∨ ordByte o = 1#8 := by
  cases o
  · exact .inl rfl
  · exact .inr rfl

/-- Decoding the word of a command gives the command back, legal layout or not (`30_encoding.md` R57). -/
@[simp] theorem decode_encode (i : Instr) : decode (encode i) = .ok i := by
  cases i with
  | extract start len ord =>
    simp [decode_eq, encode, byteOrderField_commandWord, ordByte_eq_zero_or_one]
  | inject start len ord =>
    simp [decode_eq, encode, byteOrderField_commandWord, ordByte_eq_zero_or_one]
  | tophys => decide
  | toraw => decide

/-- A word with a zero upper half and an accepted `ord` byte is the command word of its fields (R50). -/
theorem commandWord_of_fields {d : Word} {op : Byte} (hu : upperField d = 0#32)
    (ho : ordField d = 0#8 ∨ ordField d = 1#8) (hop : opField d = op) :
    commandWord op (startField d) (lenField d) (ordByte (byteOrderField d)) = d := by
  rw [commandWord_eq, ordByte_byteOrderField d ho, ← hu, ← hop]
  exact (word_of_fields d).symm

/-- A word that decodes is the word of its command: the decoder ignores no bit (R52). -/
theorem encode_of_decode {d : Word} {i : Instr} (h : decode d = .ok i) : encode i = d := by
  rw [decode_eq] at h
  split_ifs at h with hextract hinject htophys htoraw <;> cases h
  · obtain ⟨hu, ho, hop⟩ := hextract
    exact commandWord_of_fields hu ho hop
  · obtain ⟨hu, ho, hop⟩ := hinject
    exact commandWord_of_fields hu ho hop
  · rw [htophys]; decide
  · rw [htoraw]; decide

end Sys2Proof.Machine
end

section
/-!
PROOFS. The fault record stays consistent (`10_state.md` R16, R17, `60_exceptions.md` R144 to R147): one lemma for
each thing an event can do, then the step.
-/

namespace Sys2Proof.Machine

open Sys2Proof.Safety

/-- Only FAULT, CAUSE and FINFO decide whether the record is consistent. -/
theorem recordConsistent_congr {s t : State} (h : RecordConsistent s) (hf : t.fault = s.fault)
    (hc : t.cause = s.cause) (hi : t.finfo = s.finfo) : RecordConsistent t := by
  unfold RecordConsistent recordConsistent at h ⊢
  rwa [hf, hc, hi]

/-- A cleared record is consistent. -/
theorem recordConsistent_of_cleared {s : State} (hf : s.fault = false) (hc : s.cause = .none)
    (hi : s.finfo = 0#64) : RecordConsistent s := by
  simp [RecordConsistent, recordConsistent, hf, hc, hi]

/-- Taking a fault leaves a consistent record when the cause explains the word (`60_exceptions.md` R144). -/
theorem recordConsistent_raiseFault {c : Cause} {d : Word} (s : State) (h : explains c d = true) :
    RecordConsistent (raiseFault c d s) := by
  simpa [RecordConsistent, recordConsistent, raiseFault] using h

/-- A word that does not decode is explained by IllegalCommand. -/
theorem explains_illegalCommand {d : Word} {why : Rejection} (h : decode d = .error why) :
    explains .illegalCommand d = true := by
  simp [explains, h, Except.toOption]

/-- The word of a command without a legal layout is explained by LayoutViolation. -/
theorem explains_layoutViolation {i : Instr} (h : ¬ i.WellFormed) :
    explains .layoutViolation (encode i) = true := by
  simpa [explains, Instr.WellFormed] using h

/-- Executing a command keeps the record consistent: its effect leaves it alone, and LayoutViolation is the cause
of a command whose layout is illegal. -/
theorem exec_keeps_record {i : Instr} {s t : State} (hs : RecordConsistent s) (h : exec i s = .next t) :
    RecordConsistent t := by
  obtain ⟨-, rfl⟩ | ⟨-, -, rfl⟩ | ⟨-, hw, rfl⟩ := exec_cases h
  · exact hs
  · exact recordConsistent_congr hs (effect_fault i s) (effect_cause i s) (effect_finfo i s)
  · exact recordConsistent_raiseFault s (explains_layoutViolation hw)

/-- So does a word presented to CMD, IllegalCommand being the cause of one that is no command. -/
theorem presentCommand_keeps_record {d : Word} {s t : State} (hs : RecordConsistent s)
    (h : presentCommand d s = .next t) : RecordConsistent t := by
  obtain ⟨i, -, hx⟩ | ⟨why, hd, rfl⟩ := presentCommand_cases h
  · exact exec_keeps_record hs hx
  · obtain ⟨-, hr⟩ | ⟨-, hr⟩ := refuseCommand_cases .illegalCommand d s
    · rwa [hr]
    · rw [hr]; exact recordConsistent_raiseFault s (explains_illegalCommand hd)

/-- A host write either leaves the record alone or clears it whole. -/
theorem writeReg_keeps_record {s : State} (hs : RecordConsistent s) (r : Reg) (d : Word) :
    RecordConsistent (s.writeReg r d) := by
  cases r with
  | status =>
    obtain ⟨-, hw⟩ | ⟨-, hw⟩ := writeStatus_cases d s
    · simpa [State.writeReg, hw] using recordConsistent_of_cleared (s := clearFault s) rfl rfl rfl
    · simpa [State.writeReg, hw] using hs
  | _ => exact recordConsistent_congr hs rfl rfl rfl

/-- Every event keeps the record consistent. -/
theorem performEvent_keeps_record {e : HostEvent} {s t : State} (hs : RecordConsistent s)
    (h : performEvent e s = .next t) : RecordConsistent t := by
  obtain ⟨r, -, rfl⟩ | ⟨-, rfl⟩ | ⟨d, -, hp⟩ | ⟨r, d, -, -, rfl⟩ := performEvent_cases h
  · exact recordConsistent_congr hs rfl rfl rfl
  · exact recordConsistent_of_cleared rfl rfl rfl
  · exact presentCommand_keeps_record hs hp
  · exact writeReg_keeps_record hs r d

/-- Settles O18: an idle step keeps the state, and every event keeps the record consistent. -/
theorem faultRecordKept : Obligations.FaultRecordKept := by
  unfold Obligations.FaultRecordKept
  intro s t hs h
  cases hp : s.port with
  | nil =>
    rw [step_idle hp] at h
    cases h
    exact hs
  | cons e rest =>
    rw [step_event hp] at h
    have hrest : RecordConsistent (s.setPort rest) := recordConsistent_congr hs rfl rfl rfl
    exact performEvent_keeps_record hrest h

/-- Settles O19: the reset state has a cleared record. -/
theorem faultRecordAtReset : Obligations.FaultRecordAtReset :=
  recordConsistent_of_cleared rfl rfl rfl

end Sys2Proof.Machine
end

section
/-!
PROOFS. The 64-bit host view of BUF (`10_state.md` R11, `20_memory.md` R34).
-/

namespace Sys2Proof.Machine

/-- Byte `k` of the host's view is payload byte `k`. -/
theorem wordByte_packBuf (p : Payload) (k : Fin 8) : wordByte (packBuf p) k.val = payloadByte p k := by
  apply BitVec.eq_of_getLsbD_eq
  intro i hi
  simp only [wordByte_getLsbD, packBuf, append8_getLsbD, decide_eq_true hi, Bool.true_and]
  fin_cases k <;> grind [payloadByte]

/-- Byte `k` of the payload a write of BUF stores is byte `k` of the data (`20_memory.md` R33). -/
theorem payloadByte_unpackBuf (d : Word) (k : Fin 8) : payloadByte (unpackBuf d) k = wordByte d k.val := by
  fin_cases k <;> rfl

/-- A word is determined by its eight bytes. -/
theorem word_eq_of_wordByte_eq {v w : Word} (h : ∀ k : Fin 8, wordByte v k.val = wordByte w k.val) : v = w := by
  apply BitVec.eq_of_getLsbD_eq
  intro j hj
  have hbit := congrArg (·.getLsbD (j % 8)) (h ⟨j / 8, by omega⟩)
  have hlt : j % 8 < 8 := Nat.mod_lt j (by decide)
  simpa only [wordByte_getLsbD, decide_eq_true hlt, Bool.true_and, Nat.div_add_mod] using hbit

/-- A payload is determined by its eight bytes. -/
theorem payload_eq_of_payloadByte_eq {p q : Payload} (h : ∀ k : Fin 8, payloadByte p k = payloadByte q k) :
    p = q := by
  cases p; cases q
  exact (Payload.mk.injEq ..).mpr ⟨h 0, h 1, h 2, h 3, h 4, h 5, h 6, h 7⟩

/-- Packing inverts unpacking, byte by byte. -/
theorem packBuf_unpackBuf (d : Word) : packBuf (unpackBuf d) = d :=
  word_eq_of_wordByte_eq fun k => (wordByte_packBuf _ k).trans (payloadByte_unpackBuf d k)

/-- Unpacking inverts packing, byte by byte. -/
theorem unpackBuf_packBuf (p : Payload) : unpackBuf (packBuf p) = p :=
  payload_eq_of_payloadByte_eq fun k => (payloadByte_unpackBuf _ k).trans (wordByte_packBuf p k)

/-- Settles O10: a word and a payload are each determined by their eight bytes, which packing and unpacking keep. -/
theorem hostViewOfBuf : Obligations.HostViewOfBuf :=
  ⟨packBuf_unpackBuf, unpackBuf_packBuf, wordByte_packBuf⟩

end Sys2Proof.Machine
end

section
/-!
PROOFS. Reset, and which events change which data register (`10_state.md` R11 to R14, R21).
-/

namespace Sys2Proof.Machine

/-- Settles O17: a step with a reset at the port is `resetRegisters` on the rest. -/
theorem resetValues : Obligations.ResetValues := by
  unfold Obligations.ResetValues
  intro s rest h
  rw [step_event h]
  rfl

/-- Which command a change of each data register names. -/
theorem exec_writers {i : Instr} {s t : State} (h : exec i s = .next t) :
    (t.buf ≠ s.buf → ∃ start len ord, i = .inject start len ord) ∧
      (t.raw ≠ s.raw → (∃ start len ord, i = .extract start len ord) ∨ i = .toraw) ∧
      (t.phys ≠ s.phys → i = .tophys) ∧ t.factor = s.factor ∧ t.offset = s.offset := by
  obtain ⟨-, rfl⟩ | ⟨-, -, rfl⟩ | ⟨-, -, rfl⟩ := exec_cases h
  · simp
  · cases i <;> simp [effect]
  · simp [raiseFault]

/-- The same of the word presented to CMD, which is the word of that command. -/
theorem presentCommand_writers {d : Word} {s t : State} (h : presentCommand d s = .next t) :
    (t.buf ≠ s.buf → ∃ start len ord, d = encode (.inject start len ord)) ∧
      (t.raw ≠ s.raw → (∃ start len ord, d = encode (.extract start len ord)) ∨ d = encode .toraw) ∧
      (t.phys ≠ s.phys → d = encode .tophys) ∧ t.factor = s.factor ∧ t.offset = s.offset := by
  obtain ⟨i, hd, hx⟩ | ⟨why, hd, rfl⟩ := presentCommand_cases h
  · obtain rfl := encode_of_decode hd
    obtain ⟨hbuf, hraw, hphys, hfactor, hoffset⟩ := exec_writers hx
    refine ⟨fun hne => ?_, fun hne => ?_, fun hne => ?_, hfactor, hoffset⟩
    · obtain ⟨start, len, ord, rfl⟩ := hbuf hne
      exact ⟨start, len, ord, rfl⟩
    · obtain ⟨start, len, ord, rfl⟩ | rfl := hraw hne
      · exact .inl ⟨start, len, ord, rfl⟩
      · exact .inr rfl
    · rw [hphys hne]
  · obtain ⟨-, hr⟩ | ⟨-, hr⟩ := refuseCommand_cases .illegalCommand d s <;> simp [hr, raiseFault]

/-- A host write changes the data register it names and no other. -/
theorem writeReg_writers (s : State) (r : Reg) (d : Word) :
    ((s.writeReg r d).buf ≠ s.buf → r = .buf) ∧ ((s.writeReg r d).raw ≠ s.raw → r = .raw) ∧
      ((s.writeReg r d).phys ≠ s.phys → r = .phys) ∧ ((s.writeReg r d).factor ≠ s.factor → r = .factor) ∧
      ((s.writeReg r d).offset ≠ s.offset → r = .offset) := by
  cases r with
  | status => obtain ⟨-, hw⟩ | ⟨-, hw⟩ := writeStatus_cases d s <;> simp [State.writeReg, hw, clearFault]
  | _ => simp [State.writeReg]

/-- Settles O20: by the four kinds of event, a read changing nothing. -/
theorem writersOfRegisters : Obligations.WritersOfRegisters := by
  unfold Obligations.WritersOfRegisters
  intro s t e rest hp h
  rw [step_event hp] at h
  obtain ⟨r, rfl, rfl⟩ | ⟨rfl, rfl⟩ | ⟨d, rfl, hc⟩ | ⟨r, d, rfl, -, rfl⟩ := performEvent_cases h
  · simp
  · simp
  · simpa using presentCommand_writers hc
  · obtain ⟨hbuf, hraw, hphys, hfactor, hoffset⟩ := writeReg_writers (s.setPort rest) r d
    exact ⟨fun hne => .inr (.inl ⟨d, by rw [hbuf hne]⟩), fun hne => .inr (.inl ⟨d, by rw [hraw hne]⟩),
      fun hne => .inr (.inl ⟨d, by rw [hphys hne]⟩), fun hne => .inr ⟨d, by rw [hfactor hne]⟩,
      fun hne => .inr ⟨d, by rw [hoffset hne]⟩⟩

end Sys2Proof.Machine
end

section
/-!
PROOFS. What an event does is independent of the events still at the port (`20_memory.md` R38), so a run is a
sequence of steps (`10_state.md` R18).
-/

namespace Sys2Proof.Machine

/-- No read sees the port. -/
@[simp] theorem readReg_setPort (s : State) (es : List HostEvent) (r : Reg) :
    (s.setPort es).readReg r = s.readReg r := by cases r <;> rfl

/-- No host write touches the port or depends on it. -/
@[simp] theorem writeReg_setPort (s : State) (es : List HostEvent) (r : Reg) (d : Word) :
    (s.setPort es).writeReg r d = (s.writeReg r d).setPort es := by
  cases r with
  | status => simp only [State.writeReg, writeStatus]; split <;> rfl
  | _ => rfl

/-- Nor does a command's effect. -/
@[simp] theorem effect_setPort (i : Instr) (s : State) (es : List HostEvent) :
    effect i (s.setPort es) = (effect i s).setPort es := by cases i <;> rfl

/-- Nor does taking a fault. -/
@[simp] theorem raiseFault_setPort (c : Cause) (d : Word) (s : State) (es : List HostEvent) :
    raiseFault c d (s.setPort es) = (raiseFault c d s).setPort es := rfl

/-- A command does the same whatever is at the port. -/
theorem exec_setPort {i : Instr} {s t : State} (es : List HostEvent) (h : exec i s = .next t) :
    exec i (s.setPort es) = .next (t.setPort es) := by
  rw [exec_eq]
  obtain ⟨hf, rfl⟩ | ⟨hf, hw, rfl⟩ | ⟨hf, hw, rfl⟩ := exec_cases h
  · simp [hf]
  · simp [hf, hw]
  · simp [hf, hw]

/-- Refusing a command does the same whatever is at the port. -/
@[simp] theorem refuseCommand_setPort (c : Cause) (d : Word) (s : State) (es : List HostEvent) :
    refuseCommand c d (s.setPort es) = (refuseCommand c d s).setPort es := by
  unfold refuseCommand
  cases h : s.fault with
  | true => simp [h]
  | false => simp [h]

/-- A word presented to CMD does the same whatever is at the port. -/
theorem presentCommand_setPort {d : Word} {s t : State} (es : List HostEvent)
    (h : presentCommand d s = .next t) : presentCommand d (s.setPort es) = .next (t.setPort es) := by
  obtain ⟨i, hd, hx⟩ | ⟨why, hd, rfl⟩ := presentCommand_cases h
  · simpa [presentCommand, hd] using exec_setPort es hx
  · simp [presentCommand, hd]

/-- A write to any register but CMD only stores (`20_memory.md` R33). -/
theorem performEvent_wr {r : Reg} (hr : r ≠ .cmd) (d : Word) (s : State) :
    performEvent (.wr r d) s = .next (s.writeReg r d) := by
  cases r with
  | cmd => exact absurd rfl hr
  | _ => rfl

/-- An event does the same whatever is still at the port, and leaves it there. -/
theorem performEvent_setPort {e : HostEvent} {s t : State} (es : List HostEvent)
    (h : performEvent e s = .next t) : performEvent e (s.setPort es) = .next (t.setPort es) := by
  obtain ⟨r, rfl, rfl⟩ | ⟨rfl, rfl⟩ | ⟨d, rfl, hp⟩ | ⟨r, d, rfl, hr, rfl⟩ := performEvent_cases h
  · rw [performEvent, readReg_setPort]; rfl
  · rfl
  · exact presentCommand_setPort es hp
  · rw [performEvent_wr hr, writeReg_setPort]

/-- A step performs the event placed first at the port, on the state with the rest there. -/
theorem step_setPort_cons (s : State) (e : HostEvent) (es : List HostEvent) :
    step (s.setPort (e :: es)) = performEvent e (s.setPort es) := rfl

/-- A run of the events is as many steps with them at the port, by induction on the list. -/
theorem run_eq_performAll {es : List HostEvent} {s t : State} (h : performAll es s = .next t) :
    Host.Core.run core es.length (s.setPort es) = .next (t.setPort []) := by
  induction es generalizing s with
  | nil => cases h; rfl
  | cons e es ih =>
    rw [performAll] at h
    cases he : performEvent e s with
    | next u =>
      rw [he] at h
      have hstep : core.step (s.setPort (e :: es)) = .next (u.setPort es) :=
        (step_setPort_cons s e es).trans (performEvent_setPort es he)
      simp only [List.length_cons, Host.Core.run, hstep]
      exact ih h
    | fault r => cases r
    | refused r => simp [he] at h

/-- Settles O48: a step takes one event off the port, and no event depends on the ones behind it. -/
theorem runIsSteps : Obligations.RunIsSteps := by
  unfold Obligations.RunIsSteps
  intro es s t h
  exact run_eq_performAll h

end Sys2Proof.Machine
end

section
/-!
PROOFS. binary64 patterns and exact rounding (`41_converter.md` R90, R91), the conversions of raw values (R92, R93),
and the identity scaling (R94, R95).
-/

namespace Sys2Proof.Machine

/-! ### The pattern of a sign and a magnitude -/

/-- The number a sign and 63 bits below it make. -/
theorem withSign_toNat (neg : Bool) {b : Nat} (hb : b < 2 ^ 63) :
    (withSign neg b).toNat = 2 ^ 63 * neg.toNat + b := by
  unfold withSign
  rw [BitVec.toNat_append, BitVec.toNat_ofNat, Nat.mod_eq_of_lt hb, ← Nat.shiftLeft_add_eq_or_of_lt hb,
    Nat.shiftLeft_eq]
  cases neg <;> simp

/-- The sign is bit 63. -/
theorem signOf_eq (x : Word) : signOf x = decide (2 ^ 63 ≤ x.toNat) := by
  rw [signOf, ← BitVec.msb_eq_getLsbD_last x, BitVec.msb_eq_decide]

/-- A pattern is its sign and its low 63 bits. -/
theorem withSign_signOf (x : Word) : withSign (signOf x) (x.toNat % 2 ^ 63) = x := by
  apply BitVec.eq_of_toNat_eq
  rw [withSign_toNat _ (Nat.mod_lt _ (by decide)), signOf_eq]
  by_cases h : 2 ^ 63 ≤ x.toNat <;> simp only [h, decide_true, decide_false, Bool.toNat_true, Bool.toNat_false] <;> omega

/-- The exponent, from the low 63 bits. -/
theorem exponentOf_eq (x : Word) : exponentOf x = x.toNat % 2 ^ 63 / 2 ^ 52 := by
  rw [exponentOf, BitVec.extractLsb'_toNat, Nat.shiftRight_eq_div_pow]
  omega

/-- The fraction, from the low 63 bits. -/
theorem fractionOf_eq (x : Word) : fractionOf x = x.toNat % 2 ^ 63 % 2 ^ 52 := by
  rw [fractionOf, BitVec.extractLsb'_toNat, Nat.shiftRight_eq_div_pow]
  omega

/-- The magnitude, in units of 2^-1074, of a finite pattern whose low 63 bits are `b` (R90). -/
def finiteMag (b : Nat) : Nat :=
  if b / 2 ^ 52 = 0 then b % 2 ^ 52 else (2 ^ 52 + b % 2 ^ 52) * 2 ^ (b / 2 ^ 52 - 1)

/-- The sign of a pattern made of a sign and 63 bits. -/
theorem signOf_withSign (neg : Bool) {b : Nat} (hb : b < 2 ^ 63) : signOf (withSign neg b) = neg := by
  rw [signOf_eq, withSign_toNat neg hb]
  cases neg <;> simp only [Bool.toNat_true, Bool.toNat_false, decide_eq_true_eq, decide_eq_false_iff_not] <;> omega

/-- Below those of an infinity, the low 63 bits are a finite number's. -/
theorem unpack_withSign_finite (neg : Bool) {b : Nat} (hb : b < infMag) :
    unpack (withSign neg b) = .finite neg (finiteMag b) := by
  have hinf : b < 0x7FF * 2 ^ 52 := hb
  have hlow : (withSign neg b).toNat % 2 ^ 63 = b := by rw [withSign_toNat neg (by omega)]; omega
  unfold unpack finiteMag
  rw [exponentOf_eq, fractionOf_eq, hlow, signOf_withSign neg (by omega), if_neg (by omega)]
  split <;> rfl

/-- Above those of an infinity, they are a NaN's. -/
theorem unpack_withSign_nan (neg : Bool) {f : Nat} (h0 : f ≠ 0) (h : f < 2 ^ 52) :
    unpack (withSign neg (infMag + f)) = .nan := by
  have hlow : (withSign neg (infMag + f)).toNat % 2 ^ 63 = infMag + f := by
    rw [withSign_toNat neg (by unfold infMag; omega)]; unfold infMag; omega
  unfold unpack
  rw [exponentOf_eq, fractionOf_eq, hlow, if_pos (by unfold infMag; omega), if_neg (by unfold infMag; omega)]

/-- A finite pattern's low 63 bits are below those of an infinity, and its magnitude is theirs. -/
theorem finite_low {x : Word} {neg : Bool} {m : Nat} (h : unpack x = .finite neg m) :
    neg = signOf x ∧ x.toNat % 2 ^ 63 < infMag ∧ m = finiteMag (x.toNat % 2 ^ 63) := by
  unfold unpack at h
  rw [exponentOf_eq, fractionOf_eq] at h
  unfold infMag finiteMag
  split_ifs at h with hE hF h0 <;> cases h
  · exact ⟨rfl, by omega, by rw [if_pos h0]⟩
  · exact ⟨rfl, by omega, by rw [if_neg h0]⟩

/-! ### Rounding -/

/-- A whole quotient is not rounded. -/
theorem roundHalfEven_of_dvd {n d : Nat} (hd : 0 < d) (h : d ∣ n) : roundHalfEven n d = n / d := by
  have hr : n % d = 0 := Nat.mod_eq_zero_of_dvd h
  simp [roundHalfEven, hr, hd.ne]

/-- Rounding depends on the ratio alone. -/
theorem roundHalfEven_mul_right (n d : Nat) {c : Nat} (hc : 0 < c) :
    roundHalfEven (n * c) (d * c) = roundHalfEven n d := by
  unfold roundHalfEven
  simp only [Nat.mul_div_mul_right n d hc, Nat.mul_mod_mul_right, ← Nat.mul_assoc, Nat.mul_lt_mul_right hc,
    Nat.mul_left_inj hc.ne']

/-- The binary64 nearest to a ratio depends on the ratio alone. -/
theorem roundMag_mul_right (n d : Nat) {c : Nat} (hc : 0 < c) : roundMag (n * c) (d * c) = roundMag n d := by
  have hu : ulpShift (n * c) (d * c) = ulpShift n d := by rw [ulpShift, ulpShift, Nat.mul_div_mul_right n d hc]
  rw [roundMag, roundMag, hu, Nat.mul_right_comm, roundHalfEven_mul_right _ _ hc]

/-- A significand of at most 53 bits, with its first bit set unless it counts units of 2^-1074. -/
def NormalSignificand (q shift : Nat) : Prop := q < 2 ^ 53 ∧ (shift = 0 ∨ 2 ^ 52 ≤ q)

/-- The place of a normal significand is found from the number alone. -/
theorem log2_of_normalSignificand {q shift : Nat} (h : NormalSignificand q shift) :
    Nat.log2 (q * 2 ^ shift) - 52 = shift := by
  obtain ⟨hq, rfl | hlow⟩ := h
  · rcases Nat.eq_zero_or_pos q with rfl | hpos
    · decide
    · have := (Nat.log2_lt hpos.ne').mpr hq
      rw [pow_zero, Nat.mul_one]
      omega
  · have hlog : Nat.log2 (q * 2 ^ shift) = 52 + shift := by
      have hpow := Nat.two_pow_pos shift
      rw [Nat.log2_eq_iff (Nat.mul_ne_zero (by omega) hpow.ne'), Nat.add_right_comm, pow_add, pow_add _ (52 + 1)]
      exact ⟨Nat.mul_le_mul_right _ hlow, Nat.mul_lt_mul_of_pos_right hq hpow⟩
    omega

/-- A number with a normal significand rounds to the pattern that holds it, as far as there is one. -/
theorem roundMag_of_normalSignificand {q shift : Nat} (h : NormalSignificand q shift) :
    roundMag (q * 2 ^ shift) 1 = min (2 ^ 52 * shift + q) infMag := by
  have hu : ulpShift (q * 2 ^ shift) 1 = shift := by rw [ulpShift, Nat.div_one, log2_of_normalSignificand h]
  have hpow := Nat.two_pow_pos shift
  rw [roundMag, hu, Nat.one_mul, roundHalfEven_of_dvd hpow (Nat.dvd_mul_left ..), Nat.mul_div_cancel _ hpow]

/-- That pattern's magnitude is the number. -/
theorem finiteMag_of_normalSignificand {q shift : Nat} (h : NormalSignificand q shift) :
    finiteMag (2 ^ 52 * shift + q) = q * 2 ^ shift := by
  obtain ⟨hq, hlow⟩ := h
  unfold finiteMag
  by_cases hsub : q < 2 ^ 52
  · obtain rfl : shift = 0 := by omega
    rw [if_pos (by omega), pow_zero]
    omega
  · rw [if_neg (by omega), show (2 ^ 52 * shift + q) / 2 ^ 52 - 1 = shift by omega,
      show 2 ^ 52 + (2 ^ 52 * shift + q) % 2 ^ 52 = q by omega]

/-- The lower 63 bits of any finite pattern are those of a normal significand. -/
theorem exists_normalSignificand (b : Nat) :
    ∃ q shift, NormalSignificand q shift ∧ b = 2 ^ 52 * shift + q :=
  ⟨b - 2 ^ 52 * (b / 2 ^ 52 - 1), b / 2 ^ 52 - 1, ⟨by omega, by omega⟩, by omega⟩

/-- A number of at most 53 significant bits has a normal significand. -/
theorem exists_normalSignificand_mul_two_pow {k : Nat} (hk : k < 2 ^ 53) (j : Nat) :
    ∃ q shift, NormalSignificand q shift ∧ k * 2 ^ j = q * 2 ^ shift := by
  induction j generalizing k with
  | zero => exact ⟨k, 0, ⟨hk, .inl rfl⟩, rfl⟩
  | succ j ih =>
    by_cases hlow : 2 ^ 52 ≤ k
    · exact ⟨k, j + 1, ⟨hk, .inr hlow⟩, rfl⟩
    · obtain ⟨q, shift, hn, heq⟩ := ih (k := k * 2) (by omega)
      exact ⟨q, shift, hn, by rw [← heq, pow_succ', ← Nat.mul_assoc]⟩

/-- Rounding gives a finite binary64 back (`41_converter.md` R91). -/
theorem roundBits_of_finite {x : Word} {neg : Bool} {m : Nat} (h : unpack x = .finite neg m) :
    roundBits neg m 1 = x := by
  obtain ⟨rfl, hlt, rfl⟩ := finite_low h
  obtain ⟨q, shift, hn, hb⟩ := exists_normalSignificand (x.toNat % 2 ^ 63)
  have hround : roundMag (finiteMag (x.toNat % 2 ^ 63)) 1 = x.toNat % 2 ^ 63 := by
    rw [hb] at hlt ⊢
    rw [finiteMag_of_normalSignificand hn, roundMag_of_normalSignificand hn, Nat.min_eq_left hlt.le]
  rw [roundBits, hround, withSign_signOf]

/-- The unit count of 1 is not zero. -/
theorem unitOne_pos : 0 < unitOne := by
  unfold unitOne
  positivity

/-- A ratio that reduces to a finite binary64 rounds to it. -/
theorem roundBits_mul_of_finite {x : Word} {neg : Bool} {m : Nat} (h : unpack x = .finite neg m) :
    roundBits neg (m * unitOne) unitOne = x := by
  have hr := roundMag_mul_right m 1 unitOne_pos
  rw [Nat.one_mul] at hr
  rw [roundBits, hr]
  exact roundBits_of_finite h

/-! ### Arithmetic with 1 and +0 -/

/-- The reset FACTOR is 1 (`10_state.md` R21). -/
theorem unpack_one : unpack 0x3FF0000000000000#64 = .finite false unitOne := by
  decide +kernel

/-- The reset OFFSET is +0. -/
theorem unpack_zero : unpack 0#64 = .finite false 0 := by decide

/-- A finite number times 1 is itself. -/
theorem fmul_one (nan : Word) {x : Word} {neg : Bool} {m : Nat} (h : unpack x = .finite neg m) :
    fmul nan x 0x3FF0000000000000#64 = x := by
  simp only [fmul, h, unpack_one, Bool.xor_false]
  exact roundBits_mul_of_finite h

/-- A finite number over 1 is itself. -/
theorem fdiv_one (nan : Word) {x : Word} {neg : Bool} {m : Nat} (h : unpack x = .finite neg m) :
    fdiv nan x 0x3FF0000000000000#64 = x := by
  simp only [fdiv, h, unpack_one, Bool.xor_false, if_neg unitOne_pos.ne']
  rw [Nat.mul_comm]
  exact roundBits_mul_of_finite h

/-- Adding a zero of either sign leaves a number that is not negative, since an exact zero comes out as +0. -/
theorem addFinite_zero {x : Word} {m : Nat} (h : unpack x = .finite false m) (t : Bool) :
    addFinite false m t 0 = x := by
  have hx := roundBits_of_finite h
  have hsum : signedMag false m + signedMag t 0 = (m : Int) := by cases t <;> simp [signedMag]
  rw [addFinite, hsum]
  split_ifs with h0
  · obtain rfl : m = 0 := by omega
    rw [← hx]
    cases t <;> decide
  · rwa [decide_eq_false (by omega), Int.natAbs_natCast]

/-- Adding +0 leaves a number that is not negative. -/
theorem fadd_zero (nan : Word) {x : Word} {m : Nat} (h : unpack x = .finite false m) : fadd nan x 0#64 = x := by
  simp only [fadd, h, unpack_zero]
  exact addFinite_zero h false

/-- Subtracting +0 leaves a number that is not negative. -/
theorem fsub_zero (nan : Word) {x : Word} {m : Nat} (h : unpack x = .finite false m) : fsub nan x 0#64 = x := by
  simp only [fsub, h, unpack_zero]
  exact addFinite_zero h (!false)

/-! ### The conversions of raw values (R92, R93) -/

/-- A raw value, below 2^64, is below 2^1138 units of 2^-1074. -/
theorem unitOne_mul_lt (r : Word) : unitOne * r.toNat < 2 ^ 1138 :=
  calc unitOne * r.toNat < unitOne * 2 ^ 64 := Nat.mul_lt_mul_of_pos_left r.isLt unitOne_pos
    _ = 2 ^ 1138 := by rw [unitOne, ← pow_add]

/-- Rounding goes up by less than one place. -/
theorem roundHalfEven_le (n d : Nat) : roundHalfEven n d ≤ n / d + 1 := by
  unfold roundHalfEven
  dsimp only
  split <;> omega

/-- Numbers of the size of raw values are far below overflow. -/
theorem roundMag_lt_infMag {n : Nat} (h : n < 2 ^ 1138) : roundMag n 1 < infMag := by
  have hshift : ulpShift n 1 ≤ 1085 := by
    rw [ulpShift, Nat.div_one]
    rcases Nat.eq_zero_or_pos n with rfl | hpos
    · simp
    · have := (Nat.log2_lt hpos.ne').mpr h
      omega
  have hq : n / 2 ^ ulpShift n 1 < 2 ^ 53 := by
    rw [Nat.div_lt_iff_lt_mul (Nat.two_pow_pos _), ← pow_add]
    refine Nat.lt_log2_self.trans_le (Nat.pow_le_pow_right (by decide) ?_)
    rw [ulpShift, Nat.div_one]
    omega
  have hle := roundHalfEven_le n (2 ^ ulpShift n 1)
  rw [roundMag, Nat.one_mul]
  unfold infMag
  omega

/-- A raw value converts to a finite number that is not negative (R92). -/
theorem u2f_finite (r : Word) : ∃ m, unpack (u2f r) = .finite false m :=
  ⟨_, unpack_withSign_finite false (roundMag_lt_infMag (unitOne_mul_lt r))⟩

/-- A raw value of at most 53 significant bits converts exactly (R92). -/
theorem u2f_exact {r : Word} {k e : Nat} (hk : k < 2 ^ 53) (hr : r.toNat = k * 2 ^ e) :
    unpack (u2f r) = .finite false (unitOne * r.toNat) := by
  obtain ⟨q, shift, hn, heq⟩ := exists_normalSignificand_mul_two_pow hk (1074 + e)
  have hval : unitOne * r.toNat = q * 2 ^ shift := by
    rw [← heq, hr, unitOne, pow_add, Nat.mul_left_comm]
  have hround := roundMag_of_normalSignificand hn
  have hfin := roundMag_lt_infMag (unitOne_mul_lt r)
  rw [hval, hround] at hfin
  have hfit : 2 ^ 52 * shift + q < infMag := by omega
  rw [u2f, roundBits, hval, hround, Nat.min_eq_left hfit.le, unpack_withSign_finite false hfit,
    finiteMag_of_normalSignificand hn]

/-- A whole number below 2^64 converts back exactly (R93). -/
theorem f2u_of_whole {x r : Word} (h : unpack x = .finite false (unitOne * r.toNat)) : f2u x = r := by
  have hlt : ¬ 2 ^ 64 * unitOne ≤ unitOne * r.toNat := by
    rw [Nat.mul_comm, Nat.not_le]
    exact Nat.mul_lt_mul_of_pos_left r.isLt unitOne_pos
  simp only [f2u, h, if_neg hlt, Nat.mul_div_cancel_left _ unitOne_pos, BitVec.ofNat_toNat, BitVec.setWidth_eq,
    Bool.false_eq_true, if_false]

/-- `to_physical` over the decided operations (R94). -/
theorem toPhysical_ieee (nan r f o : Word) : toPhysical (ieee nan) r f o = fadd nan (fmul nan (u2f r) f) o := rfl

/-- `to_raw` over the decided operations (R95). -/
theorem toRaw_ieee (nan p f o : Word) : toRaw (ieee nan) p f o = f2u (fdiv nan (fsub nan p o) f) := rfl

/-- With factor 1 and offset +0, `to_physical` is the conversion alone. -/
theorem toPhysical_identity (nan r : Word) :
    toPhysical (ieee nan) r 0x3FF0000000000000#64 0#64 = u2f r := by
  obtain ⟨m, hm⟩ := u2f_finite r
  rw [toPhysical_ieee, fmul_one nan hm, fadd_zero nan hm]

/-- With factor 1 and offset +0, `to_raw` gives back a raw value that `u2f` converts exactly. -/
theorem toRaw_identity (nan : Word) {r : Word} {k e : Nat} (hk : k < 2 ^ 53) (hr : r.toNat = k * 2 ^ e) :
    toRaw (ieee nan) (u2f r) 0x3FF0000000000000#64 0#64 = r := by
  have hx := u2f_exact hk hr
  rw [toRaw_ieee, fsub_zero nan hx, fdiv_one nan hx, f2u_of_whole hx]

/-- Settles O46: multiplying or dividing by 1.0 and adding or subtracting +0 give a finite number back, and
`f2u` inverts an exact `u2f`. -/
theorem identityScaling : Obligations.IdentityScaling :=
  fun nan r => ⟨toPhysical_identity nan r, fun _ _ hk hr => toRaw_identity nan hk hr⟩

end Sys2Proof.Machine
end

section
/-!
PROOFS. A command's result depends on its named inputs only (`10_state.md` R19); for TORAW this needs that no
produced NaN is visible in a raw value (`41_converter.md` R99).
-/

namespace Sys2Proof.Machine

/-- A difference is the produced NaN, or the same for every pattern of it. -/
theorem fsub_cases (a b : Word) : (∀ nan, fsub nan a b = nan) ∨ ∃ x, ∀ nan, fsub nan a b = x := by
  simp only [fsub]
  cases unpack a <;> cases unpack b
  case infinite.infinite s t =>
    by_cases hst : s = t
    · simp [hst]
    · exact .inr ⟨infBits s, fun nan => if_neg hst⟩
  all_goals simp

/-- The same of a quotient. -/
theorem fdiv_cases (a b : Word) : (∀ nan, fdiv nan a b = nan) ∨ ∃ x, ∀ nan, fdiv nan a b = x := by
  simp only [fdiv]
  cases unpack a <;> cases unpack b
  case finite.finite s m t n =>
    by_cases hn : n = 0 <;> by_cases hm : m = 0 <;> simp [hn, hm]
  all_goals simp

/-- A NaN minuend or dividend gives the produced NaN (R91). -/
theorem fdiv_nan_left {nan a b : Word} (h : unpack a = .nan) : fdiv nan a b = nan := by
  simp [fdiv, h]

/-- A NaN converts to 0 (R93). -/
theorem f2u_nan {x : Word} (h : unpack x = .nan) : f2u x = 0#64 := by
  simp [f2u, h]

/-- Every draw of NAN_BITS is a NaN (R99). -/
theorem unpack_nanBits (n : Nat) : unpack (nanBits n) = .nan :=
  unpack_withSign_nan _ (Nat.succ_ne_zero _) (by have := (Config.freeNan n).2.isLt; omega)

/-- Which NaN pattern the operations produce is not visible in a raw value (R99). -/
theorem toRaw_nan_irrelevant {nan nan' : Word} (h : unpack nan = .nan) (h' : unpack nan' = .nan) (p f o : Word) :
    toRaw (ieee nan) p f o = toRaw (ieee nan') p f o := by
  rw [toRaw_ieee, toRaw_ieee]
  obtain hs | ⟨x, hs⟩ := fsub_cases p o
  · rw [hs, hs, fdiv_nan_left h, fdiv_nan_left h', f2u_nan h, f2u_nan h']
  · obtain hd | ⟨y, hd⟩ := fdiv_cases x f
    · rw [hs, hs, hd, hd, f2u_nan h, f2u_nan h']
    · rw [hs, hs, hd, hd]

/-- A command with a legal layout takes its effect when no fault is recorded. -/
theorem exec_effect {i : Instr} {s : State} (hf : s.fault = false) (hw : i.WellFormed) :
    exec i s = .next (effect i s) := by
  simp [exec_eq, hf, hw]

/-- Settles O21: in both states the command takes its effect, which names its inputs; the draw that TORAW takes is not visible. -/
theorem commandInputs : Obligations.CommandInputs := by
  unfold Obligations.CommandInputs
  intro s s' t t' i hf hf' hw h h'
  rw [exec_effect hf hw] at h
  rw [exec_effect hf' hw] at h'
  cases h
  cases h'
  cases i with
  | extract start len ord =>
    intro hbuf
    simp only [effect, State.setRaw_raw, hbuf]
  | inject start len ord =>
    intro hbuf hraw
    simp only [effect, State.setBuf_buf, hbuf, hraw]
  | tophys =>
    intro hraw hfactor hoffset hdraw
    simp only [effect, State.takeNanDraw_phys, State.setPhys_phys, State.numerics, hraw, hfactor, hoffset, hdraw]
  | toraw =>
    intro hphys hfactor hoffset
    simp only [effect, State.setRaw_raw, State.numerics, hphys, hfactor, hoffset]
    exact toRaw_nan_irrelevant (unpack_nanBits _) (unpack_nanBits _) _ _ _

end Sys2Proof.Machine
end

section
/-!
PROOFS. The host port (`20_memory.md` R31 to R33, R38): every transaction completes, a read only returns a value, a
write only stores one, and a command is executed on the state with its write taken off.
-/

namespace Sys2Proof.Machine

/-- Executing a command answers a next state and leaves the host's side alone. -/
theorem exec_completes (i : Instr) (s : State) :
    ∃ t, exec i s = .next t ∧ t.port = s.port ∧ t.replies = s.replies := by
  refine ⟨_, exec_eq i s, ?_⟩
  split_ifs
  · exact ⟨rfl, rfl⟩
  · exact ⟨effect_port i s, effect_replies i s⟩
  · exact ⟨rfl, rfl⟩

/-- A word that decodes is presented to CMD by executing its command (`30_encoding.md` R56). -/
theorem presentCommand_of_decode {d : Word} {i : Instr} (h : decode d = .ok i) (s : State) :
    presentCommand d s = exec i s := by
  simp [presentCommand, h]

/-- A word that does not decode is refused with IllegalCommand (`30_encoding.md` R55). -/
theorem presentCommand_of_rejected {d : Word} {why : Rejection} (h : decode d = .error why) (s : State) :
    presentCommand d s = .next (refuseCommand .illegalCommand d s) := by
  simp [presentCommand, h]

/-- Presenting a word to CMD completes, command or not, and leaves the host's side alone. -/
theorem presentCommand_completes (d : Word) (s : State) :
    ∃ t, presentCommand d s = .next t ∧ t.port = s.port ∧ t.replies = s.replies := by
  cases hd : decode d with
  | ok i =>
    rw [presentCommand_of_decode hd]
    exact exec_completes i s
  | error why =>
    refine ⟨_, presentCommand_of_rejected hd s, ?_⟩
    obtain ⟨-, hr⟩ | ⟨-, hr⟩ := refuseCommand_cases .illegalCommand d s
    · rw [hr]; exact ⟨rfl, rfl⟩
    · rw [hr]; exact ⟨rfl, rfl⟩

/-- A write to any register completes and returns nothing (`20_memory.md` R31). -/
theorem performEvent_wr_completes (r : Reg) (d : Word) (s : State) :
    ∃ t, performEvent (.wr r d) s = .next t ∧ t.port = s.port ∧ t.replies = s.replies := by
  by_cases hr : r = .cmd
  · subst hr
    exact presentCommand_completes d s
  · obtain ⟨hport, hreplies, -⟩ := writeReg_hostSide s r d
    exact ⟨_, performEvent_wr hr d s, hport, hreplies⟩

/-- Settles O7: an idle step changes nothing, and each of the three kinds of event completes. -/
theorem everyTransactionCompletes : Obligations.EveryTransactionCompletes := by
  unfold Obligations.EveryTransactionCompletes
  refine ⟨fun s h => step_idle h, fun s e rest h => ?_⟩
  rw [step_event h]
  cases e with
  | wr r d => exact performEvent_wr_completes r d (s.setPort rest)
  | rd r => exact ⟨_, rfl, rfl, by simp⟩
  | reset => exact ⟨_, rfl, rfl, rfl⟩

/-- Settles O6: the step performs the write to CMD, which executes the command its word decodes to. -/
theorem stepRunsTheCommand : Obligations.StepRunsTheCommand := by
  unfold Obligations.StepRunsTheCommand
  intro s d rest i hport hdecode
  rw [step_event hport]
  exact presentCommand_of_decode hdecode (s.setPort rest)

/-- No read sees the replies (`20_memory.md` R32). -/
@[simp] theorem readReg_pushReply (s : State) (v : Word) (r : Reg) : (s.pushReply v).readReg r = s.readReg r := by
  cases r <;> rfl

/-- Two replies are appended oldest first. -/
theorem pushReply_pushReply (s : State) (v w : Word) :
    (s.pushReply v).pushReply w = { s with replies := s.replies ++ [v, w] } := by
  simp [State.pushReply]

/-- A step with a read at the port returns the register's value and changes no register. -/
theorem step_rd {s : State} {r : Reg} {rest : List HostEvent} (h : s.port = .rd r :: rest) :
    step s = .next ((s.setPort rest).pushReply (s.readReg r)) := by
  rw [step_event h, performEvent, readReg_setPort]

/-- The read that follows a read of the same register returns the same value again. -/
theorem step_rd_again (s : State) (r : Reg) (rest : List HostEvent) :
    step ((s.setPort (.rd r :: rest)).pushReply (s.readReg r)) =
      .next (((s.setPort rest).pushReply (s.readReg r)).pushReply (s.readReg r)) := by
  rw [step_rd (State.pushReply_port _ _), readReg_pushReply, readReg_setPort]
  rfl

/-- Settles O8: the value of each index is the model's by definition, and no read sees what a read changes. -/
theorem readReturns : Obligations.ReadReturns := by
  unfold Obligations.ReadReturns
  intro s r rest hport value
  have hvalue : s.readReg r = value := by cases r <;> rfl
  rw [← hvalue]
  refine ⟨step_rd hport, ?_⟩
  rintro rest' rfl
  exact (step_rd_again s r rest').trans (congrArg _ (pushReply_pushReply ..))

/-- A write to STATUS looks at bit 0 of its data only (`20_memory.md` R33). -/
theorem writeStatus_eq (d : Word) (s : State) :
    writeStatus d s = if d.getLsbD 0 = true then { s with fault := false, cause := .none, finfo := 0#64 } else s :=
  rfl

/-- Settles O9: a write to CMD presents its data; a write to any other register is `writeReg`, register by
register. -/
theorem writeStores : Obligations.WriteStores := by
  unfold Obligations.WriteStores
  intro s r d rest hport
  rw [step_event hport]
  cases r with
  | cmd => rfl
  | status =>
    rw [performEvent_wr (by decide), State.writeReg, writeStatus_eq]
    exact apply_ite Host.Outcome.next ..
  | _ => rfl

end Sys2Proof.Machine
end

section
/-!
PROOFS. The command word's fields decide what a write to CMD does (`30_encoding.md` R52 to R58): the decoder row by
row, the order in which a write is handled, and the pseudo-operations.
-/

namespace Sys2Proof.Machine

/-- Settles O1: the word of a command selects the row of the command, by `decode_encode`. -/
theorem decodeOfEncode : Obligations.DecodeOfEncode :=
  fun i => decode_encode i

/-- Settles O2: the rows of the decoder fix every field of the word, by `encode_of_decode`. -/
theorem encodeOfDecode : Obligations.EncodeOfDecode :=
  fun _ _ h => encode_of_decode h

/-- Settles O5: each word is a literal, and the decoder evaluates on it. -/
theorem workedEncodings : Obligations.WorkedEncodings := by
  unfold Obligations.WorkedEncodings
  decide

/-! ## The decoder, row by row (R51 to R54) and rejection by rejection (R55) -/

/-- The decoder with the format Z rows in terms of the fields too (R54). -/
theorem decode_eq_fields (d : Word) : decode d =
    if upperField d = 0#32 ∧ (ordField d = 0#8 ∨ ordField d = 1#8) ∧ opField d = 1#8 then
      .ok (.extract (startField d) (lenField d) (byteOrderField d))
    else if upperField d = 0#32 ∧ (ordField d = 0#8 ∨ ordField d = 1#8) ∧ opField d = 2#8 then
      .ok (.inject (startField d) (lenField d) (byteOrderField d))
    else if upperField d = 0#32 ∧ d.extractLsb' 8 24 = 0#24 ∧ opField d = 3#8 then .ok .tophys
    else if upperField d = 0#32 ∧ d.extractLsb' 8 24 = 0#24 ∧ opField d = 4#8 then .ok .toraw
    else .error (rejectionOf d) := by
  have htophys : d = 3#64 ↔ _ := zeroOperands_iff d 3#8
  have htoraw : d = 4#64 ↔ _ := zeroOperands_iff d 4#8
  simp only [decode_eq, htophys, htoraw]

/-- An accepted `ord` byte is 0 for little-endian, else it means big-endian (R51). -/
theorem byteOrderField_of_ord_le_one {d : Word} (ho : ¬ 1 < (ordField d).toNat) :
    byteOrderField d = if ordField d = 0#8 then .little else .big := by
  rw [byteOrderField_eq]
  obtain h | h := (ordByte_le_one _).1 ho
  · rw [h]; rfl
  · rw [h]; rfl

/-- The row of EXTRACT. -/
theorem decode_extract {d : Word} (hu : upperField d = 0#32) (hop : opField d = 1#8)
    (ho : ¬ 1 < (ordField d).toNat) :
    decode d = .ok (.extract (startField d) (lenField d) (if ordField d = 0#8 then .little else .big)) := by
  rw [← byteOrderField_of_ord_le_one ho]
  simp [decode_eq_fields, hu, hop, (ordByte_le_one _).1 ho]

/-- The row of INJECT. -/
theorem decode_inject {d : Word} (hu : upperField d = 0#32) (hop : opField d = 2#8)
    (ho : ¬ 1 < (ordField d).toNat) :
    decode d = .ok (.inject (startField d) (lenField d) (if ordField d = 0#8 then .little else .big)) := by
  rw [← byteOrderField_of_ord_le_one ho]
  simp [decode_eq_fields, hu, hop, (ordByte_le_one _).1 ho]

/-- The row of TOPHYS. -/
theorem decode_tophys {d : Word} (hu : upperField d = 0#32) (hop : opField d = 3#8)
    (hz : d.extractLsb' 8 24 = 0#24) : decode d = .ok .tophys := by
  simp [decode_eq_fields, hu, hop, hz]

/-- The row of TORAW. -/
theorem decode_toraw {d : Word} (hu : upperField d = 0#32) (hop : opField d = 4#8)
    (hz : d.extractLsb' 8 24 = 0#24) : decode d = .ok .toraw := by
  simp [decode_eq_fields, hu, hop, hz]

/-- A word whose upper half is not zero is no command. -/
theorem decode_upperHalf {d : Word} (hu : upperField d ≠ 0#32) : decode d = .error .upperHalf := by
  simp [decode_eq_fields, rejectionOf, hu]

/-- A format F word with `ord >= 2` is no command. -/
theorem decode_byteOrder {d : Word} (hu : upperField d = 0#32) (hop : opField d = 1#8 ∨ opField d = 2#8)
    (ho : 1 < (ordField d).toNat) : decode d = .error .byteOrder := by
  have hord : ¬ (ordField d = 0#8 ∨ ordField d = 1#8) := fun h => (ordByte_le_one _).2 h ho
  obtain hop | hop := hop
  · simp [decode_eq_fields, rejectionOf, hu, hop, hord]
  · simp [decode_eq_fields, rejectionOf, hu, hop, hord]

/-- A format Z word with an operand byte that is not zero is no command. -/
theorem decode_operands {d : Word} (hu : upperField d = 0#32) (hop : opField d = 3#8 ∨ opField d = 4#8)
    (hz : d.extractLsb' 8 24 ≠ 0#24) : decode d = .error .operands := by
  obtain hop | hop := hop
  · simp [decode_eq_fields, rejectionOf, hu, hop, hz]
  · simp [decode_eq_fields, rejectionOf, hu, hop, hz]

/-- A word whose operation byte is not 1 to 4 is no command. -/
theorem decode_operation {d : Word} (hu : upperField d = 0#32) (hF : ¬ (opField d = 1#8 ∨ opField d = 2#8))
    (hZ : ¬ (opField d = 3#8 ∨ opField d = 4#8)) : decode d = .error .operation := by
  rw [not_or] at hF hZ
  simp [decode_eq_fields, rejectionOf, hu, hF, hZ]

/-! ## What a write to CMD does (R56) -/

/-- The layout check of R56's pseudocode is the failing of the layout condition (R53). -/
theorem not_fieldFits_iff (start len : Byte) :
    ¬ fieldFits start.toNat len.toNat ↔ len = 0#8 ∨ 64 < len.toNat ∨ 64 < start.toNat + len.toNat := by
  rw [← BitVec.toNat_inj, fieldFits, BitVec.toNat_zero]
  omega

/-- A command is discarded while a fault is recorded. -/
theorem exec_faulted {s : State} (hf : s.fault = true) (i : Instr) : exec i s = .next s := by
  simp [exec_eq, hf]

/-- A command whose layout is illegal raises LayoutViolation with its own word. -/
theorem exec_layoutViolation {i : Instr} {s : State} (hf : s.fault = false) (hw : ¬ i.WellFormed) :
    exec i s = .next (raiseFault .layoutViolation (encode i) s) := by
  simp [exec_eq, hf, hw]

/-- Step 1: any word is discarded while a fault is recorded. -/
theorem presentCommand_faulted {s : State} (hf : s.fault = true) (d : Word) : presentCommand d s = .next s := by
  cases hd : decode d with
  | ok i => rw [presentCommand_of_decode hd, exec_faulted hf]
  | error why => rw [presentCommand_of_rejected hd, refuseCommand, if_pos hf]

/-- Step 2: a word that is no command raises IllegalCommand. -/
theorem presentCommand_illegalCommand {d : Word} {why : Rejection} {s : State} (hf : s.fault = false)
    (hd : decode d = .error why) : presentCommand d s = .next (raiseFault .illegalCommand d s) := by
  rw [presentCommand_of_rejected hd, refuseCommand, if_neg (by simp [hf])]

/-- Step 3: a command whose layout is illegal raises LayoutViolation with the word that was written. -/
theorem presentCommand_layoutViolation {d : Word} {i : Instr} {s : State} (hf : s.fault = false)
    (hd : decode d = .ok i) (hw : ¬ i.WellFormed) :
    presentCommand d s = .next (raiseFault .layoutViolation d s) := by
  rw [presentCommand_of_decode hd, exec_layoutViolation hf hw, encode_of_decode hd]

/-- Settles O4: one case for each branch of R56's pseudocode, with the row or the rejection of the word there. -/
theorem commandHandlingOrder : Obligations.CommandHandlingOrder := by
  unfold Obligations.CommandHandlingOrder
  intro s d rest hport
  rw [step_event hport]
  change presentCommand d (s.setPort rest) = _
  extract_lets u op ord start len order illegal
  by_cases hf : s.fault = true
  · rw [if_pos hf]
    exact presentCommand_faulted (s := u) hf d
  rw [if_neg hf]
  replace hf : u.fault = false := eq_false_of_ne_true hf
  by_cases hu : d.extractLsb' 32 32 ≠ 0#32
  · rw [if_pos hu]
    exact presentCommand_illegalCommand hf (decode_upperHalf hu)
  rw [if_neg hu]
  replace hu := not_not.1 hu
  split_ifs with hF ho hlayout hop hZ hz hop
  · exact presentCommand_illegalCommand hf (decode_byteOrder hu hF ho)
  · have hfits := (not_fieldFits_iff start len).2 hlayout
    obtain hop | hop := hF
    · exact presentCommand_layoutViolation hf (decode_extract hu hop ho)
        (mt (wellFormed_extract ..).1 hfits)
    · exact presentCommand_layoutViolation hf (decode_inject hu hop ho)
        (mt (wellFormed_inject ..).1 hfits)
  · exact presentCommand_of_decode (decode_extract hu hop ho) u
  · exact presentCommand_of_decode (decode_inject hu (hF.resolve_left hop) ho) u
  · exact presentCommand_illegalCommand hf (decode_operands hu hZ hz)
  · exact presentCommand_of_decode (decode_tophys hu hop (not_not.1 hz)) u
  · exact presentCommand_of_decode (decode_toraw hu (hZ.resolve_left hop) (not_not.1 hz)) u
  · exact presentCommand_illegalCommand hf (decode_operation hu hF hZ)

/-! ## The pseudo-operations (R58) -/

/-- Writing a command's word to CMD executes the command. -/
theorem performEvent_commandEvent (i : Instr) (s : State) : performEvent (commandEvent i) s = exec i s :=
  presentCommand_of_decode (decode_encode i) s

/-- A run goes on from the state its first event leaves. -/
theorem performAll_cons_of_next {e : HostEvent} {s t : State} (h : performEvent e s = .next t)
    (es : List HostEvent) : performAll (e :: es) s = performAll es t := by
  simp [performAll, h]

/-- A DECSIG with an illegal layout records the fault of its EXTRACT, and its TOPHYS is discarded. -/
theorem performAll_decsig_layoutViolation {s : State} {start len : Byte} {ord : ByteOrder} (hf : s.fault = false)
    (hw : ¬ (Instr.extract start len ord).WellFormed) :
    performAll (expandLine (.decsig start len ord)) s =
      .next (raiseFault .layoutViolation (encode (.extract start len ord)) s) := by
  have hextract := (performEvent_commandEvent _ s).trans (exec_layoutViolation hf hw)
  have htophys := (performEvent_commandEvent .tophys _).trans
    (exec_faulted (s := raiseFault .layoutViolation (encode (.extract start len ord)) s) rfl _)
  rw [expandLine, performAll_cons_of_next hextract, performAll_cons_of_next htophys, performAll]

/-- Settles O51: the expansions are those of `expandLine`, TOPHYS and TORAW with their words written out. -/
theorem pseudoOperations : Obligations.PseudoOperations := by
  unfold Obligations.PseudoOperations
  exact ⟨rfl, rfl, fun _ _ => rfl, fun _ _ _ => rfl, fun _ _ _ => rfl,
    fun _ _ _ _ hf hw => performAll_decsig_layoutViolation hf hw⟩

end Sys2Proof.Machine
end

section
/-!
PROOFS. The assembled word and the payload byte by byte (`40_bitfield.md` R70, R71, R80).
-/

namespace Sys2Proof.Machine

/-- The byte of the assembled word that payload byte `i` is (`40_bitfield.md` R70). -/
def byteSlot (ord : ByteOrder) (i : Fin 8) : Fin 8 :=
  match ord with
  | .little => i
  | .big => i.rev

@[simp] theorem byteSlot_little (i : Fin 8) : byteSlot .little i = i := rfl

@[simp] theorem byteSlot_big (i : Fin 8) : byteSlot .big i = i.rev := rfl

/-- Placing twice is the identity, for both byte orders. -/
theorem byteSlot_involutive (ord : ByteOrder) : Function.Involutive (byteSlot ord) := by
  cases ord with
  | little => exact fun _ => rfl
  | big => exact Fin.rev_rev

/-- The place of a byte counted from the other end, as R70 writes it. -/
theorem val_rev_eq_seven_sub (i : Fin 8) : i.rev.val = 7 - i.val := by
  rw [Fin.val_rev]; omega

/-- Byte `i` of the payload stands in its slot of the assembled word; the big-endian word is the little-endian one of
the reversed payload. -/
theorem wordByte_assemble (p : Payload) (ord : ByteOrder) (i : Fin 8) :
    wordByte (assemble p ord) (byteSlot ord i).val = payloadByte p i := by
  cases ord with
  | little => exact wordByte_packBuf p i
  | big =>
    refine (wordByte_packBuf ⟨p.b7, p.b6, p.b5, p.b4, p.b3, p.b2, p.b1, p.b0⟩ i.rev).trans ?_
    fin_cases i <;> rfl

/-- Byte `i` that `serialize` stores is the byte of the word in its slot (R71). -/
theorem payloadByte_serialize (w : Word) (ord : ByteOrder) (i : Fin 8) :
    payloadByte (serialize w ord) i = wordByte w (byteSlot ord i).val := by
  cases ord with
  | little => exact payloadByte_unpackBuf w i
  | big => fin_cases i <;> rfl

/-- The same read from the word's side: slot `k` of the word is the payload byte that `k` is the slot of. -/
theorem wordByte_assemble_slot (p : Payload) (ord : ByteOrder) (k : Fin 8) :
    wordByte (assemble p ord) k.val = payloadByte p (byteSlot ord k) := by
  rw [← wordByte_assemble p ord, byteSlot_involutive ord k]

/-- Serializing an assembled word gives the payload back, slot by slot. -/
@[simp] theorem serialize_assemble (p : Payload) (ord : ByteOrder) : serialize (assemble p ord) ord = p :=
  payload_eq_of_payloadByte_eq fun i => (payloadByte_serialize _ ord i).trans (wordByte_assemble p ord i)

/-- Assembling a serialized word gives the word back, slot by slot. -/
@[simp] theorem assemble_serialize (w : Word) (ord : ByteOrder) : assemble (serialize w ord) ord = w :=
  word_eq_of_wordByte_eq fun k => by
    rw [wordByte_assemble_slot, payloadByte_serialize, byteSlot_involutive ord k]

/-- A word is the sum of its bytes at their places. -/
theorem toNat_eq_sum_wordByte (w : Word) : w.toNat = ∑ k : Fin 8, (wordByte w k.val).toNat * 2 ^ (8 * k.val) := by
  have hw := w.isLt
  have hbyte (k : Nat) : (wordByte w k).toNat = w.toNat / 2 ^ (8 * k) % 256 := by
    rw [wordByte, BitVec.extractLsb'_toNat, Nat.shiftRight_eq_div_pow]
  simp only [hbyte, Fin.sum_univ_eq_sum_range (fun k => w.toNat / 2 ^ (8 * k) % 256 * 2 ^ (8 * k)),
    Finset.sum_range_succ, Finset.sum_range_zero]
  omega

/-- The assembled word is the sum of the payload's bytes, each at its slot (R70). -/
theorem assemble_toNat (p : Payload) (ord : ByteOrder) :
    (assemble p ord).toNat = ∑ i : Fin 8, (payloadByte p i).toNat * 2 ^ (8 * (byteSlot ord i).val) := by
  rw [toNat_eq_sum_wordByte, ← Equiv.sum_comp (byteSlot_involutive ord).toPerm]
  simp only [Function.Involutive.coe_toPerm, wordByte_assemble]

/-- Settles O27: the sum over the slots, and the byte in each slot, for the two byte orders. -/
theorem assembledWord : Obligations.AssembledWord := by
  unfold Obligations.AssembledWord
  intro p
  have hlittle := assemble_toNat p .little
  have hbig := assemble_toNat p .big
  simp only [byteSlot_little, byteSlot_big, val_rev_eq_seven_sub] at hlittle hbig
  refine ⟨hlittle, hbig, fun i => ⟨wordByte_assemble p .little i, ?_⟩⟩
  rw [← val_rev_eq_seven_sub]
  exact wordByte_assemble p .big i

/-- Settles O28: both round trips, and the slot of each byte that `serialize` stores. -/
theorem serializeInverts : Obligations.SerializeInverts := by
  unfold Obligations.SerializeInverts
  refine fun ord => ⟨fun p => serialize_assemble p ord, fun w => assemble_serialize w ord, fun w i => ?_⟩
  rw [payloadByte_serialize]
  cases ord with
  | little => rfl
  | big => rw [byteSlot_big, val_rev_eq_seven_sub]; rfl

/-! ## The host view (R80) -/

/-- Reversing a word's bytes is storing it big-endian and reading it as the host does. -/
theorem bswap64_eq (w : Word) : bswap64 w = packBuf (serialize w .big) := rfl

/-- The big-endian word is the byte reversal of the host's view. -/
theorem assemble_big_eq (p : Payload) : assemble p .big = bswap64 (packBuf p) :=
  word_eq_of_wordByte_eq fun k => by
    rw [bswap64_eq, wordByte_packBuf, payloadByte_serialize, wordByte_packBuf, wordByte_assemble_slot]

/-- Bytes are taken of an OR one by one. -/
theorem wordByte_or (v w : Word) (i : Nat) : wordByte (v ||| w) i = wordByte v i ||| wordByte w i :=
  BitVec.extractLsb'_or

/-- In the host's view, an OR into the assembled word of either byte order is an OR into BUF. -/
theorem packBuf_serialize_or (p : Payload) (ord : ByteOrder) (x : Word) :
    packBuf (serialize (assemble p ord ||| x) ord) = packBuf p ||| packBuf (serialize x ord) :=
  word_eq_of_wordByte_eq fun k => by
    simp only [wordByte_or, wordByte_packBuf, payloadByte_serialize, wordByte_assemble]

end Sys2Proof.Machine
end

section
/-!
PROOFS. The mask and the pure functions `extract` and `inject` (`40_bitfield.md` R72 to R74, R79).
-/

namespace Sys2Proof.Machine

/-! ## The mask and the field of a word -/

/-- A field that fits is at most 64 bits long. -/
theorem fieldFits.len_le {start len : Nat} (h : fieldFits start len) : len ≤ 64 := by
  obtain ⟨-, hlen, -⟩ := h
  exact hlen

/-- The mask of a length up to 64 does not wrap. -/
theorem mask_toNat {len : Nat} (h : len ≤ 64) : (mask len).toNat = 2 ^ len - 1 := by
  have hpow : 2 ^ len ≤ 2 ^ 64 := Nat.pow_le_pow_right (by decide) h
  have hpos : 0 < 2 ^ len := Nat.two_pow_pos len
  rw [mask, BitVec.toNat_ofNat, Nat.mod_eq_of_lt (by omega)]

/-- Settles O29: the value and the bits of every mask, and the four masks evaluated. -/
theorem maskValue : Obligations.MaskValue := by
  unfold Obligations.MaskValue
  exact ⟨fun len _ h => ⟨mask_toNat h, fun k => mask_getLsbD len k h⟩, by decide, by decide, by decide, by decide⟩

/-- Masking is the remainder by the power of two. -/
theorem and_mask_toNat (v : Word) {len : Nat} (h : len ≤ 64) : (v &&& mask len).toNat = v.toNat % 2 ^ len := by
  rw [BitVec.toNat_and, mask_toNat h, Nat.and_two_pow_sub_one_eq_mod]

/-- A masked value is below the power of two. -/
theorem and_mask_toNat_lt (v : Word) {len : Nat} (h : len ≤ 64) : (v &&& mask len).toNat < 2 ^ len := by
  rw [and_mask_toNat v h]
  exact Nat.mod_lt _ (Nat.two_pow_pos len)

/-- The mask keeps a value that is in the field's range. -/
theorem and_mask_of_lt {v : Word} {len : Nat} (h : len ≤ 64) (hv : v.toNat < 2 ^ len) : v &&& mask len = v :=
  BitVec.eq_of_toNat_eq ((and_mask_toNat v h).trans (Nat.mod_eq_of_lt hv))

/-- The field of an OR is the OR of the fields. -/
theorem fieldOf_or (v w : Word) (start len : Nat) :
    fieldOf (v ||| w) start len = fieldOf v start len ||| fieldOf w start len := by
  simp only [fieldOf, BitVec.ushiftRight_or_distrib, BitVec.and_or_distrib_right]

/-- The field of the bits merged at the same place is the masked value. -/
theorem fieldOf_fieldBits {start len : Nat} (h : fieldFits start len) (v : Word) :
    fieldOf (fieldBits v start len) start len = v &&& mask len := by
  apply BitVec.eq_of_getLsbD_eq
  intro k _
  rw [fieldOf_getLsbD _ _ _ _ h.len_le, fieldBits_getLsbD _ _ _ _ h, BitVec.getLsbD_and, mask_getLsbD _ _ h.len_le]
  by_cases hk : k < len
  · simp [hk]
  · simp [hk]

/-- A field sees nothing of the bits merged at a disjoint place. -/
theorem fieldOf_fieldBits_disjoint {sa la sb lb : Nat} (ha : fieldFits sa la) (hb : fieldFits sb lb)
    (hd : sa + la ≤ sb ∨ sb + lb ≤ sa) (v : Word) : fieldOf (fieldBits v sb lb) sa la = 0#64 := by
  apply BitVec.eq_of_getLsbD_eq
  intro k _
  rw [fieldOf_getLsbD _ _ _ _ ha.len_le, fieldBits_getLsbD _ _ _ _ hb, BitVec.getLsbD_zero]
  by_cases hk : k < la
  · have hout : ¬ (sb ≤ sa + k ∧ sa + k < sb + lb) := by omega
    simp [hout]
  · simp [hk]

/-! ## `extract` and `inject` under the layout condition -/

/-- Under the condition `extract` reads the field of the assembled word (R73). -/
theorem extract_of_fits {start len : Nat} (h : fieldFits start len) (p : Payload) (ord : ByteOrder) :
    extract p start len ord = some (fieldOf (assemble p ord) start len) := if_pos h

/-- Under the condition `inject` merges the bits into the assembled word (R74). -/
theorem inject_of_fits {start len : Nat} (h : fieldFits start len) (p : Payload) (ord : ByteOrder) (v : Word) :
    inject p start len ord v = some (serialize (assemble p ord ||| fieldBits v start len) ord) := if_pos h

/-- Settles O30: the bits are those of `fieldOf`, whose mask bounds the value. -/
theorem extractBits : Obligations.ExtractBits := by
  unfold Obligations.ExtractBits
  intro p start len ord h1 h2 h3
  refine ⟨_, extract_of_fits ⟨h1, h2, h3⟩ p ord, rfl, and_mask_toNat_lt _ h2, fun k => ?_⟩
  rw [fieldOf_getLsbD _ _ _ _ h2, Bool.and_comm]

/-- A masked value shifted to its place fits in 64 bits (R74). -/
theorem and_mask_shifted_lt {start len : Nat} (h : fieldFits start len) (v : Word) :
    (v &&& mask len).toNat * 2 ^ start < 2 ^ 64 := by
  obtain ⟨-, hlen, hsum⟩ := h
  calc (v &&& mask len).toNat * 2 ^ start
      < 2 ^ len * 2 ^ start := Nat.mul_lt_mul_of_pos_right (and_mask_toNat_lt v hlen) (Nat.two_pow_pos start)
    _ = 2 ^ (start + len) := by rw [← Nat.pow_add, Nat.add_comm]
    _ ≤ 2 ^ 64 := Nat.pow_le_pow_right (by decide) hsum

/-- Settles O31: `assemble` undoes `serialize`, and the merged bits are those of `fieldBits`. -/
theorem injectBits : Obligations.InjectBits := by
  unfold Obligations.InjectBits
  intro p start len ord v h1 h2 h3
  have hfits : fieldFits start len := ⟨h1, h2, h3⟩
  refine ⟨_, inject_of_fits hfits p ord v, rfl, and_mask_shifted_lt hfits v, fun k => ?_⟩
  rw [assemble_serialize, BitVec.getLsbD_or, fieldBits_getLsbD _ _ _ _ hfits]

/-! ## Reading back and injecting twice (R79) -/

/-- What a field of the same byte order reads after bits were merged into the assembled word. -/
theorem extract_serialize_or {start len : Nat} (h : fieldFits start len) (p : Payload) (ord : ByteOrder) (x : Word) :
    extract (serialize (assemble p ord ||| x) ord) start len ord =
      some (fieldOf (assemble p ord) start len ||| fieldOf x start len) := by
  rw [extract_of_fits h, assemble_serialize, fieldOf_or]

/-- Settles O32: the field of the merged bits is the masked value, which is the value when it is in range. -/
theorem injectThenExtract : Obligations.InjectThenExtract := by
  unfold Obligations.InjectThenExtract
  intro p q start len ord v u hu hq
  have hfits : fieldFits start len := (extract_isSome p start len ord).1 (by rw [hu]; rfl)
  rw [extract_of_fits hfits] at hu
  rw [inject_of_fits hfits] at hq
  cases hu
  cases hq
  have hback := extract_serialize_or hfits p ord (fieldBits v start len)
  rw [fieldOf_fieldBits hfits] at hback
  refine ⟨hback, fun hzero hv => ?_⟩
  rw [hback, hzero, and_mask_of_lt hfits.len_le hv, BitVec.zero_or]

/-- The bits that an injection sets in the host's view of BUF. -/
def hostBits (v : Word) (start len : Nat) (ord : ByteOrder) : Word := packBuf (serialize (fieldBits v start len) ord)

/-- In the host's view an injection is an OR with bits that do not depend on the payload. -/
theorem inject_eq_or_hostBits {start len : Nat} (h : fieldFits start len) (p : Payload) (ord : ByteOrder) (v : Word) :
    inject p start len ord v = some (unpackBuf (packBuf p ||| hostBits v start len ord)) := by
  rw [inject_of_fits h, hostBits, ← packBuf_serialize_or, unpackBuf_packBuf]

/-- Two injections in a row OR both sets of bits into the host's view. -/
theorem inject_bind_inject {sa la sb lb : Nat} (ha : fieldFits sa la) (hb : fieldFits sb lb) (p : Payload)
    (oa ob : ByteOrder) (va vb : Word) :
    (inject p sa la oa va).bind (fun q => inject q sb lb ob vb) =
      some (unpackBuf (packBuf p ||| hostBits va sa la oa ||| hostBits vb sb lb ob)) := by
  rw [inject_eq_or_hostBits ha, Option.bind_some, inject_eq_or_hostBits hb, packBuf_unpackBuf]

/-- Injections commute, whatever their places and byte orders. -/
theorem inject_bind_comm {sa la sb lb : Nat} (ha : fieldFits sa la) (hb : fieldFits sb lb) (p : Payload)
    (oa ob : ByteOrder) (va vb : Word) :
    (inject p sa la oa va).bind (fun q => inject q sb lb ob vb) =
      (inject p sb lb ob vb).bind (fun q => inject q sa la oa va) := by
  rw [inject_bind_inject ha hb, inject_bind_inject hb ha, BitVec.or_assoc, BitVec.or_comm (hostBits va sa la oa),
    ← BitVec.or_assoc]

/-- Settles O34: in the host's view every injection is an OR with fixed bits. -/
theorem injectionsCommute : Obligations.InjectionsCommute := by
  unfold Obligations.InjectionsCommute
  intro p oa ob sa la sb lb va vb ha hb
  refine ⟨inject_bind_comm ha hb p oa ob va vb, ?_, fun q hq k hk => ?_⟩
  · rw [inject_bind_inject ha ha, BitVec.or_assoc, BitVec.or_self, inject_eq_or_hostBits ha]
  · rw [inject_eq_or_hostBits ha] at hq
    cases hq
    rw [packBuf_unpackBuf, BitVec.getLsbD_or, hk, Bool.true_or]

/-- Settles O33: injections commute, and the first field sees nothing of the bits merged at the second. -/
theorem nonInterference : Obligations.NonInterference := by
  unfold Obligations.NonInterference
  intro p ord sa la sb lb va vb ha hb hdisjoint hzero _ hva
  have hbuf : (inject p sa la ord va).bind (fun q => inject q sb lb ord vb) = some
      (serialize (assemble p ord ||| fieldBits va sa la ||| fieldBits vb sb lb) ord) := by
    rw [inject_of_fits ha, Option.bind_some, inject_of_fits hb, assemble_serialize]
  refine ⟨_, hbuf, (inject_bind_comm ha hb p ord ord va vb).symm.trans hbuf, ?_⟩
  rw [extract_of_fits ha, Option.some_inj] at hzero
  rw [BitVec.or_assoc, extract_serialize_or ha, hzero, fieldOf_or, fieldOf_fieldBits ha,
    fieldOf_fieldBits_disjoint ha hb hdisjoint, and_mask_of_lt ha.len_le hva, BitVec.zero_or, BitVec.or_zero]

end Sys2Proof.Machine
end

section
/-!
PROOFS. The commands EXTRACT and INJECT, and what they and TORAW leave unchanged (`40_bitfield.md` R76, R77, R80,
`41_converter.md` R98).
-/

namespace Sys2Proof.Machine

/-- EXTRACT with a legal layout completes. -/
theorem exec_extract_of_fits {s : State} {start len : Byte} (hf : s.fault = false)
    (h : fieldFits start.toNat len.toNat) (ord : ByteOrder) :
    exec (.extract start len ord) s =
      .next (s.setRaw (fieldOf (assemble s.buf ord) start.toNat len.toNat)) :=
  exec_effect hf ((wellFormed_extract start len ord).2 h)

/-- INJECT with a legal layout completes. -/
theorem exec_inject_of_fits {s : State} {start len : Byte} (hf : s.fault = false)
    (h : fieldFits start.toNat len.toNat) (ord : ByteOrder) :
    exec (.inject start len ord) s =
      .next (s.setBuf (serialize (assemble s.buf ord ||| fieldBits s.raw start.toNat len.toNat) ord)) :=
  exec_effect hf ((wellFormed_inject start len ord).2 h)

/-- Settles O22: the effect of EXTRACT. -/
theorem extractEffect : Obligations.ExtractEffect :=
  fun _ _ _ ord hf h1 h2 h3 => exec_extract_of_fits hf ⟨h1, h2, h3⟩ ord

/-- Settles O23: the effect of INJECT. -/
theorem injectEffect : Obligations.InjectEffect :=
  fun _ _ _ ord hf h1 h2 h3 => exec_inject_of_fits hf ⟨h1, h2, h3⟩ ord

/-- Settles O35: the big-endian word is the byte reversal of BUF, and an OR into it is one into BUF. -/
theorem codecOnHostView : Obligations.CodecOnHostView := by
  unfold Obligations.CodecOnHostView
  refine ⟨fun p => ⟨(packBuf_eq p).symm, assemble_big_eq p⟩, fun s start len hf hfits => ?_⟩
  refine ⟨exec_extract_of_fits hf hfits .little, ?_, ⟨_, exec_inject_of_fits hf hfits .little, ?_⟩,
    ⟨_, exec_inject_of_fits hf hfits .big, ?_, ?_⟩⟩
  · rw [exec_extract_of_fits hf hfits, assemble_big_eq]; rfl
  · exact assemble_serialize _ .little
  · rw [State.setBuf_buf, ← bswap64_eq, assemble_big_eq]; rfl
  · exact packBuf_serialize_or s.buf .big _

/-- No command but TOPHYS changes PHYS or takes a draw, and none changes the record if its layout is legal. -/
theorem exec_frame {i : Instr} {s t : State} (hi : i ≠ .tophys) (h : exec i s = .next t) :
    t.phys = s.phys ∧ t.factor = s.factor ∧ t.offset = s.offset ∧ t.port = s.port ∧ t.replies = s.replies ∧
      t.nanDraws = s.nanDraws ∧ (i.WellFormed → t.fault = s.fault ∧ t.cause = s.cause ∧ t.finfo = s.finfo) := by
  obtain ⟨-, rfl⟩ | ⟨-, -, rfl⟩ | ⟨-, hw, rfl⟩ := exec_cases h
  · simp
  · cases i with
    | tophys => exact absurd rfl hi
    | _ => simp [effect]
  · simp [raiseFault, hw]

/-- Settles O24: the frame of the commands, and no command but INJECT changes BUF. -/
theorem frameOfRawWriters : Obligations.FrameOfRawWriters := by
  unfold Obligations.FrameOfRawWriters
  intro s t i hi h
  obtain ⟨htophys, hinject⟩ : i ≠ .tophys ∧ ∀ start len ord, i ≠ .inject start len ord := by
    obtain rfl | ⟨start, len, ord, rfl⟩ := hi
    · simp
    · simp
  have hbuf : t.buf = s.buf := by
    by_contra hne
    obtain ⟨start, len, ord, hi⟩ := (exec_writers h).1 hne
    exact hinject start len ord hi
  obtain ⟨hphys, hfactor, hoffset, hport, hreplies, hdraws, hrecord⟩ := exec_frame htophys h
  exact ⟨hphys, hfactor, hoffset, fun k => by rw [hbuf], hport, hreplies, hdraws, hrecord⟩

/-- INJECT changes no bit of the assembled word outside its field. -/
theorem exec_inject_getLsbD_outside {s t : State} {start len : Byte} {ord : ByteOrder}
    (h : exec (.inject start len ord) s = .next t) {j : Nat} (hj : j < start.toNat ∨ start.toNat + len.toNat ≤ j) :
    (assemble t.buf ord).getLsbD j = (assemble s.buf ord).getLsbD j := by
  obtain ⟨-, rfl⟩ | ⟨-, hw, rfl⟩ | ⟨-, -, rfl⟩ := exec_cases h
  · rfl
  · have hfits := (wellFormed_inject start len ord).1 hw
    have hout : ¬ (start.toNat ≤ j ∧ j < start.toNat + len.toNat) := by omega
    simp [effect, fieldBits_getLsbD _ _ _ _ hfits, hout]
  · rfl

/-- INJECT changes no payload byte whose slot its field does not touch. -/
theorem exec_inject_payloadByte_outside {s t : State} {start len : Byte} {ord : ByteOrder}
    (h : exec (.inject start len ord) s = .next t) {k : Fin 8}
    (hk : 8 * k.val + 8 ≤ start.toNat ∨ start.toNat + len.toNat ≤ 8 * k.val) :
    payloadByte t.buf (byteSlot ord k) = payloadByte s.buf (byteSlot ord k) := by
  rw [← wordByte_assemble_slot, ← wordByte_assemble_slot]
  apply BitVec.eq_of_getLsbD_eq
  intro b hb
  rw [wordByte_getLsbD, wordByte_getLsbD, exec_inject_getLsbD_outside h (by omega)]

/-- Settles O26: RAW by the writers of RAW, the other registers by the frame of the commands, BUF bit by bit. -/
theorem frameOfInject : Obligations.FrameOfInject := by
  unfold Obligations.FrameOfInject
  intro s t start len ord h
  obtain ⟨-, hwriters, -⟩ := exec_writers h
  have hraw : t.raw = s.raw := by
    by_contra hne
    simpa using hwriters hne
  obtain ⟨hphys, hfactor, hoffset, hport, hreplies, hdraws, hrecord⟩ := exec_frame (by simp) h
  refine ⟨hraw, hphys, hfactor, hoffset, hport, hreplies, hdraws, hrecord,
    fun j hj => exec_inject_getLsbD_outside h hj, fun k hk => ?_⟩
  have hbyte := exec_inject_payloadByte_outside h hk
  cases ord with
  | little => exact hbyte
  | big => exact hbyte

end Sys2Proof.Machine
end

section
/-!
PROOFS. Which binary64 a rounding gives (`41_converter.md` R91): the patterns in order of their magnitude, the nearest
of them with ties to even, where it overflows, and that the four operations round so.
-/

namespace Sys2Proof.Machine

open Sys2Proof.Safety

/-! ### The magnitudes in order -/

/-- The next magnitude is one last place further, also where the significand runs over. -/
theorem finiteMag_succ {q shift : Nat} (h : NormalSignificand q shift) :
    finiteMag (2 ^ 52 * shift + q + 1) = (q + 1) * 2 ^ shift := by
  obtain ⟨hq, hlow⟩ := h
  by_cases hcarry : q + 1 = 2 ^ 53
  · have hnext : NormalSignificand (2 ^ 52) (shift + 1) := ⟨by decide, .inr le_rfl⟩
    rw [show 2 ^ 52 * shift + q + 1 = 2 ^ 52 * (shift + 1) + 2 ^ 52 by omega,
      finiteMag_of_normalSignificand hnext, hcarry, pow_succ' 2 shift,
      ← Nat.mul_assoc, ← pow_succ]
  · have hnext : NormalSignificand (q + 1) shift := ⟨by omega, by omega⟩
    rw [Nat.add_assoc, finiteMag_of_normalSignificand hnext]

/-- The patterns of one sign stand in the order of their magnitudes. -/
theorem finiteMag_strictMono : StrictMono finiteMag := by
  refine strictMono_nat_of_lt_succ fun b => ?_
  obtain ⟨q, shift, hn, rfl⟩ := exists_normalSignificand b
  rw [finiteMag_of_normalSignificand hn, finiteMag_succ hn]
  exact Nat.mul_lt_mul_of_pos_right (Nat.lt_succ_self q) (Nat.two_pow_pos shift)

/-! ### The nearest magnitude -/

/-- The pattern that rounding finds before an overflow is noticed. -/
def unboundedMag (n d : Nat) : Nat := 2 ^ 52 * ulpShift n d + roundHalfEven n (d * 2 ^ ulpShift n d)

/-- An overflow is the pattern of the infinity. -/
theorem roundMag_eq (n d : Nat) : roundMag n d = min (unboundedMag n d) infMag := rfl

/-- The place chosen leaves a normal significand. -/
theorem normalSignificand_quotient (n d : Nat) :
    NormalSignificand (n / (d * 2 ^ ulpShift n d)) (ulpShift n d) := by
  unfold NormalSignificand
  rw [← Nat.div_div_eq_div_mul]
  have hshift : ulpShift n d = Nat.log2 (n / d) - 52 := rfl
  have hpow := Nat.two_pow_pos (ulpShift n d)
  constructor
  · rw [Nat.div_lt_iff_lt_mul hpow, ← pow_add]
    exact Nat.lt_log2_self.trans_le (Nat.pow_le_pow_right (by decide) (by omega))
  · by_cases h0 : ulpShift n d = 0
    · exact .inl h0
    · have hpos : n / d ≠ 0 := by
        rintro hz
        simp [hshift, hz] at h0
      rw [Nat.le_div_iff_mul_le hpow, ← pow_add, show 52 + ulpShift n d = Nat.log2 (n / d) by omega]
      exact .inr (Nat.log2_self_le hpos)

/-- No magnitude lies nearer to the ratio `n / d` than that of pattern `b`, and `b` is even where another lies
equally near. -/
def NearestEven (n d b : Nat) : Prop :=
  ∀ c, |(n : Int) - d * finiteMag b| ≤ |(n : Int) - d * finiteMag c| ∧
    (c ≠ b → |(n : Int) - d * finiteMag b| = |(n : Int) - d * finiteMag c| → b % 2 = 0)

/-- The distance in natural numbers that `omega` can reason of. -/
theorem abs_sub_mul_eq (n d k : Nat) : |(n : Int) - d * k| = (((n : Int) - (d * k : Nat)).natAbs : Int) := by
  rw [Int.abs_eq_natAbs, Nat.cast_mul]

/-- A ratio between two neighbours is nearest to the one on its side of their midpoint. -/
theorem nearestEven_of_neighbours {n d lo b : Nat} (hd : 0 < d) (hlo : d * finiteMag lo ≤ n)
    (hhi : n < d * finiteMag (lo + 1))
    (hb : (b = lo ∧ 2 * n ≤ d * finiteMag lo + d * finiteMag (lo + 1) ∧
        (2 * n = d * finiteMag lo + d * finiteMag (lo + 1) → lo % 2 = 0)) ∨
      (b = lo + 1 ∧ d * finiteMag lo + d * finiteMag (lo + 1) ≤ 2 * n ∧
        (2 * n = d * finiteMag lo + d * finiteMag (lo + 1) → lo % 2 = 1))) :
    NearestEven n d b := by
  have hmono : StrictMono fun c => d * finiteMag c :=
    fun _ _ h => Nat.mul_lt_mul_of_pos_left (finiteMag_strictMono h) hd
  intro c
  simp only [abs_sub_mul_eq]
  have hbelow : c < lo → d * finiteMag c < d * finiteMag lo := fun h => hmono h
  have habove : lo + 1 < c → d * finiteMag (lo + 1) < d * finiteMag c := fun h => hmono h
  obtain hlt | rfl | rfl | hgt : c < lo ∨ c = lo ∨ c = lo + 1 ∨ lo + 1 < c := by omega
  all_goals obtain ⟨rfl, hmid⟩ | ⟨rfl, hmid⟩ := hb <;> omega

/-- Which whole number `roundHalfEven` takes. -/
theorem roundHalfEven_cases (n d : Nat) :
    (roundHalfEven n d = n / d ∧ 2 * (n % d) ≤ d ∧ (2 * (n % d) = d → n / d % 2 = 0)) ∨
      (roundHalfEven n d = n / d + 1 ∧ d ≤ 2 * (n % d) ∧ (2 * (n % d) = d → n / d % 2 = 1)) := by
  unfold roundHalfEven
  dsimp only
  split <;> omega

/-- Rounding finds the nearest magnitude, ties to even. -/
theorem unboundedMag_nearest (n : Nat) {d : Nat} (hd : 0 < d) : NearestEven n d (unboundedMag n d) := by
  have hn := normalSignificand_quotient n d
  have hround := roundHalfEven_cases n (d * 2 ^ ulpShift n d)
  have hdiv := Nat.div_add_mod n (d * 2 ^ ulpShift n d)
  have hmod := Nat.mod_lt n (Nat.mul_pos hd (Nat.two_pow_pos (ulpShift n d)))
  have hlo := congrArg (d * ·) (finiteMag_of_normalSignificand hn)
  have hhi := congrArg (d * ·) (finiteMag_succ hn)
  unfold unboundedMag
  generalize ulpShift n d = shift at *
  have hplace (q : Nat) : d * (q * 2 ^ shift) = d * 2 ^ shift * q := by ring
  simp only [hplace, Nat.mul_add, Nat.mul_one] at hlo hhi
  apply nearestEven_of_neighbours hd (lo := 2 ^ 52 * shift + n / (d * 2 ^ shift)) <;> omega

/-- A ratio not above a magnitude is not rounded above it. -/
theorem unboundedMag_le {n d p : Nat} (hd : 0 < d) (h : n ≤ d * finiteMag p) : unboundedMag n d ≤ p := by
  by_contra hlt
  have hb : d * finiteMag p < d * finiteMag (unboundedMag n d) :=
    Nat.mul_lt_mul_of_pos_left (finiteMag_strictMono (Nat.lt_of_not_le hlt)) hd
  have hnear := (unboundedMag_nearest n hd p).1
  simp only [abs_sub_mul_eq] at hnear
  omega

/-- Rounding goes beyond an odd pattern exactly from the midpoint above it on. -/
theorem lt_unboundedMag_iff (n : Nat) {d p : Nat} (hd : 0 < d) (hodd : p % 2 = 1) :
    p < unboundedMag n d ↔ d * (finiteMag p + finiteMag (p + 1)) ≤ 2 * n := by
  have hstep : d * finiteMag p < d * finiteMag (p + 1) :=
    Nat.mul_lt_mul_of_pos_left (finiteMag_strictMono (Nat.lt_succ_self p)) hd
  have hnear := unboundedMag_nearest n hd
  generalize unboundedMag n d = b at hnear
  rw [Nat.mul_add]
  constructor
  · intro hlt
    have hb : d * finiteMag (p + 1) ≤ d * finiteMag b :=
      Nat.mul_le_mul_left d (finiteMag_strictMono.monotone hlt)
    have hbelow := (hnear p).1
    simp only [abs_sub_mul_eq] at hbelow
    omega
  · intro hmid
    by_contra hle
    obtain ⟨hle', heven⟩ := hnear (p + 1)
    simp only [abs_sub_mul_eq] at hle' heven
    obtain hlt | rfl : b < p ∨ b = p := by omega
    · have hb : d * finiteMag b < d * finiteMag p :=
        Nat.mul_lt_mul_of_pos_left (finiteMag_strictMono hlt) hd
      omega
    · omega

/-! ### Overflow -/

/-- The midpoint above the largest finite magnitude, doubled. -/
theorem finiteMag_around_infMag :
    finiteMag (infMag - 1) + finiteMag (infMag - 1 + 1) = 2 * ((2 ^ 54 - 1) * 2 ^ 2044) := by
  have hn : NormalSignificand (2 ^ 53 - 1) 2045 := ⟨by decide, .inr (by decide)⟩
  rw [show infMag - 1 = 2 ^ 52 * 2045 + (2 ^ 53 - 1) by decide, finiteMag_of_normalSignificand hn, finiteMag_succ hn,
    pow_succ 2 2044]
  generalize 2 ^ 2044 = u
  omega

/-- Rounding overflows exactly from that midpoint on. -/
theorem infMag_le_unboundedMag_iff (n : Nat) {d : Nat} (hd : 0 < d) :
    infMag ≤ unboundedMag n d ↔ (2 ^ 54 - 1) * 2 ^ 2044 * d ≤ n := by
  have h := lt_unboundedMag_iff n hd (p := infMag - 1) (by decide)
  rw [finiteMag_around_infMag, Nat.mul_left_comm, Nat.mul_le_mul_left_iff (by decide), Nat.mul_comm d] at h
  rw [← h]
  have : 0 < infMag := by decide
  omega

/-! ### The rounded pattern -/

/-- An infinity is one. -/
@[simp] theorem unpack_infBits (neg : Bool) : unpack (infBits neg) = .infinite neg := by
  cases neg <;> decide

/-- What a rounded result stands for. -/
theorem unpack_roundBits (neg : Bool) (n d : Nat) :
    unpack (roundBits neg n d) =
      if infMag ≤ unboundedMag n d then .infinite neg else .finite neg (finiteMag (unboundedMag n d)) := by
  rw [roundBits, roundMag_eq]
  split_ifs with h
  · rw [Nat.min_eq_right h]
    exact unpack_infBits neg
  · rw [Nat.min_eq_left (Nat.le_of_not_le h), unpack_withSign_finite neg (Nat.lt_of_not_le h)]

/-- A rounded result has the sign it is given. -/
@[simp] theorem signOf_roundBits (neg : Bool) (n d : Nat) : signOf (roundBits neg n d) = neg :=
  signOf_withSign neg ((Nat.min_le_right ..).trans_lt (by decide))

/-- A rounded result is no NaN. -/
theorem unpack_roundBits_ne_nan (neg : Bool) (n d : Nat) : unpack (roundBits neg n d) ≠ .nan := by
  rw [unpack_roundBits]
  split <;> simp

/-- The last bit of a pattern made of a sign and 63 bits. -/
theorem withSign_getLsbD_zero (neg : Bool) {b : Nat} (hb : b < 2 ^ 63) :
    (withSign neg b).getLsbD 0 = decide (b % 2 = 1) := by
  rw [BitVec.getLsbD, Nat.testBit_zero, withSign_toNat neg hb]
  congr 1
  exact propext (by omega)

/-- A finite rounded result is nearest among the magnitudes of all patterns, with ties to even. -/
theorem roundBits_nearest {neg sg c : Bool} {n d r k : Nat} {x : Word} (hd : 0 < d)
    (hr : unpack (roundBits neg n d) = .finite sg r) (hx : unpack x = .finite c k) :
    |(n : Int) - d * r| ≤ |(n : Int) - d * k| ∧
      (k ≠ r → |(n : Int) - d * r| = |(n : Int) - d * k| → (roundBits neg n d).getLsbD 0 = false) := by
  obtain ⟨-, -, rfl⟩ := finite_low hx
  rw [unpack_roundBits] at hr
  split_ifs at hr with hinf
  cases hr
  obtain ⟨hle, heven⟩ := unboundedMag_nearest n hd (x.toNat % 2 ^ 63)
  refine ⟨hle, fun hne htie => ?_⟩
  have hb := heven (fun h => hne (by rw [h])) htie
  have hlt : unboundedMag n d < 2 ^ 63 := (Nat.lt_of_not_le hinf).trans (by decide)
  rw [roundBits, roundMag_eq, Nat.min_eq_left (Nat.le_of_not_le hinf), withSign_getLsbD_zero neg hlt]
  simp [hb]

/-- Settles O39: the nearest magnitude is even in a tie. -/
theorem tiesToEven : Obligations.TiesToEven := by
  unfold Obligations.TiesToEven
  intro neg c sg n d r k x hd hr hx hne htie
  rw [mul_comm (r : Int), mul_comm (k : Int)] at htie
  exact (roundBits_nearest hd hr hx).2 hne htie

/-- Settles O40: an infinity comes from an overflow alone. -/
theorem overflowThreshold : Obligations.OverflowThreshold := by
  unfold Obligations.OverflowThreshold
  intro neg n d hd
  refine ⟨?_, unpack_roundBits_ne_nan neg n d⟩
  rw [← infMag_le_unboundedMag_iff n hd, unpack_roundBits]
  split_ifs with h <;> simp [h]

/-- Settles O41: the pattern of a finite number has a normal significand, which rounding finds. -/
theorem representableIsExact : Obligations.RepresentableIsExact :=
  fun _ _ _ h => roundBits_of_finite h

/-! ### The four operations of finite numbers -/

/-- The magnitude of a signed magnitude. -/
@[simp] theorem abs_signedMag (neg : Bool) (m : Nat) : |signedMag neg m| = m := by
  cases neg <;> simp [signedMag]

/-- The other sign is the negative. -/
@[simp] theorem signedMag_not (neg : Bool) (m : Nat) : signedMag (!neg) m = -signedMag neg m := by
  cases neg <;> simp [signedMag]

/-- Numbers of one sign are as far apart as their magnitudes. -/
theorem abs_signedMag_sub_same (neg : Bool) (n d k : Nat) :
    |signedMag neg n - d * signedMag neg k| = |(n : Int) - d * k| := by
  cases neg
  · rfl
  · rw [← abs_neg]
    simp [signedMag, add_comm, sub_eq_add_neg]

/-- Numbers of two signs are as far apart as the sum of their magnitudes. -/
theorem abs_signedMag_sub_not (neg : Bool) (n d k : Nat) :
    |signedMag neg n - d * signedMag (!neg) k| = (n : Int) + d * k := by
  have hsum : signedMag neg n - d * signedMag (!neg) k = signedMag neg (n + d * k) := by
    cases neg <;> simp [signedMag, add_comm, sub_eq_add_neg]
  rw [hsum, abs_signedMag, Nat.cast_add, Nat.cast_mul]

/-- The threshold of the statements in natural numbers. -/
theorem overflowUnits_mul_le (n d : Nat) : overflowUnits * d ≤ n ↔ (2 ^ 54 - 1) * 2 ^ 2044 * d ≤ n := by
  have hcast : overflowUnits = ((2 ^ 54 - 1) * 2 ^ 2044 : Nat) := by
    rw [overflowUnits, Nat.cast_mul, Nat.cast_pow]
    rfl
  rw [hcast, ← Nat.cast_mul, Nat.cast_le]

/-- A number rounded with its sign is correctly rounded. -/
theorem correctlyRounded_roundBits (neg : Bool) (n : Nat) {d : Nat} (hd : 0 < d) :
    CorrectlyRounded (roundBits neg n d) (signedMag neg n) d := by
  unfold CorrectlyRounded
  have hval := unpack_roundBits neg n d
  rw [abs_signedMag]
  simp only [overflowUnits_mul_le, ← infMag_le_unboundedMag_iff n hd]
  split_ifs at hval ⊢ with hinf
  · have hpos : 0 < n := by
      refine Nat.pos_of_ne_zero ?_
      rintro rfl
      have := unboundedMag_le (p := 0) hd (Nat.zero_le _)
      exact absurd (hinf.trans this) (by decide)
    rw [hval]
    cases neg <;> simp [signedMag, hpos]
  · refine ⟨neg, _, hval, fun y c k hy => ?_⟩
    rw [abs_signedMag_sub_same]
    obtain rfl | rfl : c = neg ∨ c = !neg := by cases c <;> cases neg <;> simp
    · rw [abs_signedMag_sub_same]
      obtain ⟨hle, heven⟩ := roundBits_nearest hd hval hy
      exact ⟨hle, fun hne => heven fun hk => hne (by rw [hk])⟩
    · rw [abs_signedMag_sub_not]
      obtain ⟨hle, heven⟩ := roundBits_nearest hd hval unpack_zero
      have hdist : |(n : Int) - d * (0 : Nat)| = n := by simp
      rw [hdist] at hle heven
      have hdk : 0 ≤ (d : Int) * k := by positivity
      refine ⟨by omega, fun hne htie => heven ?_ (by omega)⟩
      intro h0
      have hk : k = 0 := by
        have : (d : Int) * k = 0 := by omega
        simpa [hd.ne'] using this
      rw [hk, ← h0] at hne
      simp [signedMag] at hne

/-- A zero is one. -/
@[simp] theorem unpack_zeroBits (neg : Bool) : unpack (zeroBits neg) = .finite neg 0 := by
  cases neg <;> decide

/-- An integer is its magnitude with its sign. -/
theorem signedMag_natAbs (i : Int) : signedMag (decide (i < 0)) i.natAbs = i := by
  unfold signedMag
  split_ifs with h <;> simp only [decide_eq_true_eq] at h <;> omega

/-- A sum of finite numbers is its exact value rounded once, under a sign that is right unless it is zero. -/
theorem addFinite_eq (s t : Bool) (m n : Nat) : ∃ neg,
    addFinite s m t n = roundBits neg (signedMag s m + signedMag t n).natAbs 1 ∧
      signedMag neg (signedMag s m + signedMag t n).natAbs = signedMag s m + signedMag t n := by
  unfold addFinite
  generalize signedMag s m + signedMag t n = sum
  by_cases h0 : sum = 0
  · subst h0
    exact ⟨s && t, (roundBits_of_finite (unpack_zeroBits _)).symm, by simp [signedMag]⟩
  · exact ⟨decide (sum < 0), if_neg h0, signedMag_natAbs sum⟩

/-- A sum of finite numbers is correctly rounded. -/
theorem correctlyRounded_addFinite (s t : Bool) (m n : Nat) :
    CorrectlyRounded (addFinite s m t n) (signedMag s m + signedMag t n) 1 := by
  obtain ⟨neg, hround, hsum⟩ := addFinite_eq s t m n
  have h := correctlyRounded_roundBits neg (signedMag s m + signedMag t n).natAbs Nat.one_pos
  rwa [hsum, ← hround] at h

/-! Each operation of two finite numbers, by the exact value that it rounds. -/

section
variable {a b : Word} {s t : Bool} {m n : Nat}

theorem fmul_finite (nan : Word) (ha : unpack a = .finite s m) (hb : unpack b = .finite t n) :
    fmul nan a b = roundBits (s ^^ t) (m * n) unitOne := by
  simp only [fmul, ha, hb]

theorem fadd_finite (nan : Word) (ha : unpack a = .finite s m) (hb : unpack b = .finite t n) :
    fadd nan a b = addFinite s m t n := by
  simp only [fadd, ha, hb]

theorem fsub_finite (nan : Word) (ha : unpack a = .finite s m) (hb : unpack b = .finite t n) :
    fsub nan a b = addFinite s m (!t) n := by
  simp only [fsub, ha, hb]

theorem fdiv_finite (nan : Word) (ha : unpack a = .finite s m) (hb : unpack b = .finite t n) (hn : n ≠ 0) :
    fdiv nan a b = roundBits (s ^^ t) (unitOne * m) n := by
  simp only [fdiv, ha, hb, if_neg hn]

/-- A finite number over a zero: a NaN of a zero, else an infinity (R91). -/
theorem fdiv_zero (nan : Word) (ha : unpack a = .finite s m) (hb : unpack b = .finite t 0) :
    fdiv nan a b = if m = 0 then nan else infBits (s ^^ t) := by
  simp only [fdiv, ha, hb, if_true]

end

/-- Settles O38: each operation is one rounding of the exact result. -/
theorem operationsCorrectlyRounded : Obligations.OperationsCorrectlyRounded := by
  unfold Obligations.OperationsCorrectlyRounded
  intro nan a b s t m n ha hb
  rw [fmul_finite nan ha hb, fadd_finite nan ha hb, fsub_finite nan ha hb, sub_eq_add_neg, ← signedMag_not t n]
  refine ⟨correctlyRounded_roundBits _ _ unitOne_pos, correctlyRounded_addFinite s t m n,
    correctlyRounded_addFinite s (!t) m n, signOf_roundBits .., fun hn => ?_⟩
  rw [fdiv_finite nan ha hb hn]
  exact ⟨correctlyRounded_roundBits _ _ (Nat.pos_of_ne_zero hn), signOf_roundBits ..⟩

end Sys2Proof.Machine
end

section
/-!
PROOFS. The conversions of raw values in full (`41_converter.md` R92, R93): `u2f` rounds to nearest, `f2u` truncates
and saturates.
-/

namespace Sys2Proof.Machine

/-! ### `u2f` -/

/-- What a raw value converts to: the nearest magnitude. -/
theorem unpack_u2f (r : Word) : unpack (u2f r) = .finite false (finiteMag (unboundedMag (unitOne * r.toNat) 1)) := by
  obtain ⟨m, hm⟩ := u2f_finite r
  rw [u2f, unpack_roundBits] at hm ⊢
  split_ifs at hm ⊢ with h
  rfl

/-- The low 63 bits of the pattern of 2^64. -/
def twoPow64Mag : Nat := 0x43F0000000000000

/-- The magnitude of 2^64, and of the binary64 below it. -/
theorem finiteMag_around_twoPow64 :
    finiteMag (twoPow64Mag - 1) = unitOne * (2 ^ 64 - 2 ^ 11) ∧ finiteMag twoPow64Mag = unitOne * 2 ^ 64 := by
  decide +kernel

/-- No raw value converts to more than 2^64. -/
theorem unboundedMag_u2f_le (r : Word) : unboundedMag (unitOne * r.toNat) 1 ≤ twoPow64Mag := by
  refine unboundedMag_le Nat.one_pos ?_
  rw [finiteMag_around_twoPow64.2, Nat.one_mul]
  exact Nat.mul_le_mul_left unitOne r.isLt.le

/-- From the midpoint below it on, a raw value converts to 2^64. -/
theorem u2f_eq_twoPow64 {r : Word} (h : 2 ^ 64 - 2 ^ 10 ≤ r.toNat) : u2f r = 0x43F0000000000000#64 := by
  have hbeyond : twoPow64Mag - 1 < unboundedMag (unitOne * r.toNat) 1 := by
    rw [lt_unboundedMag_iff _ Nat.one_pos (by decide), show twoPow64Mag - 1 + 1 = twoPow64Mag from rfl,
      finiteMag_around_twoPow64.1, finiteMag_around_twoPow64.2, Nat.one_mul, ← Nat.mul_add, Nat.mul_left_comm]
    exact Nat.mul_le_mul_left unitOne (by omega)
  have heq : unboundedMag (unitOne * r.toNat) 1 = twoPow64Mag := by
    have := unboundedMag_u2f_le r
    omega
  rw [u2f, roundBits, roundMag_eq, heq]
  decide

/-- Settles O44: exact where the significand fits, else the nearest magnitude, which is never above 2^64. -/
theorem unsignedToFloat : Obligations.UnsignedToFloat := by
  unfold Obligations.UnsignedToFloat
  intro r
  refine ⟨fun k e hk hr => u2f_exact hk hr, ⟨_, unpack_u2f r, ?_, fun x c k hx => ?_⟩, u2f_eq_twoPow64⟩
  · rw [← finiteMag_around_twoPow64.2]
    exact finiteMag_strictMono.monotone (unboundedMag_u2f_le r)
  · have h := roundBits_nearest Nat.one_pos (unpack_u2f r) hx
    simp only [Nat.cast_one, one_mul, Nat.cast_mul] at h
    exact h

/-! ### `f2u` -/

/-- In range, the integer part. -/
theorem f2u_truncates {x : Word} {m : Nat} (h : unpack x = .finite false m) (hm : m < unitOne * 2 ^ 64) :
    (f2u x).toNat = m / unitOne := by
  have hlt : m / unitOne < 2 ^ 64 := Nat.div_lt_of_lt_mul hm
  rw [Nat.mul_comm] at hm
  simp only [f2u, h, Bool.false_eq_true, if_false, if_neg (Nat.not_le.mpr hm)]
  exact Nat.mod_eq_of_lt hlt

/-- From 2^64 on, all ones. -/
theorem f2u_saturates {x : Word} {m : Nat} (h : unpack x = .finite false m) (hm : unitOne * 2 ^ 64 ≤ m) :
    f2u x = 0xFFFFFFFFFFFFFFFF#64 := by
  rw [Nat.mul_comm] at hm
  simp only [f2u, h, Bool.false_eq_true, if_false, if_pos hm]
  rfl

/-- An infinity saturates at the end of its sign. -/
theorem f2u_infinite {x : Word} {neg : Bool} (h : unpack x = .infinite neg) :
    f2u x = if neg then 0#64 else 0xFFFFFFFFFFFFFFFF#64 := by
  simp only [f2u, h]
  rfl

/-- Nothing below zero is a raw value. -/
theorem f2u_negative {x : Word} {m : Nat} (h : unpack x = .finite true m) : f2u x = 0#64 := by
  simp only [f2u, h, if_true]

/-- Settles O45: by the class of the value. -/
theorem floatToUnsigned : Obligations.FloatToUnsigned := by
  unfold Obligations.FloatToUnsigned
  intro x
  cases h : unpack x with
  | nan => exact f2u_nan h
  | infinite neg => exact f2u_infinite h
  | finite neg m =>
    cases neg with
    | true => exact f2u_negative h
    | false =>
      refine ⟨fun hm => ?_, f2u_saturates h⟩
      rw [f2u_truncates h hm]
      exact ⟨Nat.mul_div_le m unitOne, Nat.lt_mul_div_succ m unitOne_pos⟩

end Sys2Proof.Machine
end

section
/-!
PROOFS. NaN, infinities and zeros in the four operations (`41_converter.md` R91, R99), and a factor of zero (R101).
-/

namespace Sys2Proof.Machine

/-! ### Which patterns are NaNs, infinities and zeros -/

/-- A NaN pattern by its fields (R90). -/
theorem unpack_eq_nan_iff (x : Word) : unpack x = .nan ↔ exponentOf x = 0x7FF ∧ fractionOf x ≠ 0 := by
  unfold unpack
  by_cases hE : exponentOf x = 0x7FF
  · by_cases hF : fractionOf x = 0 <;> simp [hE, hF]
  · rw [if_neg hE]
    split <;> simp [hE]

/-- The model's test for a NaN agrees with what the pattern stands for. -/
theorem isNaN_iff (x : Word) : isNaN x = true ↔ unpack x = .nan := by
  simp [isNaN, unpack_eq_nan_iff]

/-- There is one infinity of each sign. -/
theorem eq_infBits {x : Word} {neg : Bool} (h : unpack x = .infinite neg) : x = infBits neg := by
  have hlow : neg = signOf x ∧ x.toNat % 2 ^ 63 = infMag := by
    unfold unpack at h
    rw [exponentOf_eq, fractionOf_eq] at h
    unfold infMag
    split_ifs at h with hE hF h0
    cases h
    exact ⟨rfl, by omega⟩
  rw [infBits, hlow.1, ← hlow.2, withSign_signOf]

/-- There is one zero of each sign. -/
theorem eq_zeroBits {x : Word} {neg : Bool} (h : unpack x = .finite neg 0) : x = zeroBits neg := by
  rw [← roundBits_of_finite h, roundBits_of_finite (unpack_zeroBits neg)]

/-! ### Produced NaNs (R99) -/

/-- Every draw of NAN_BITS has the fields of a NaN. -/
theorem nanBits_fields (n : Nat) :
    (nanBits n).extractLsb' 52 11 = 0x7FF#11 ∧ (nanBits n).extractLsb' 0 52 ≠ 0#52 := by
  obtain ⟨hexponent, hfraction⟩ := (unpack_eq_nan_iff _).1 (unpack_nanBits n)
  exact ⟨BitVec.eq_of_toNat_eq hexponent, fun h => hfraction (by rw [fractionOf, h]; rfl)⟩

/-- If a result is a NaN at all, it is the pattern `nan`. -/
def OnlyNan (nan x : Word) : Prop := unpack x = .nan → x = nan

/-- The pattern itself is allowed. -/
@[simp] theorem onlyNan_self (nan : Word) : OnlyNan nan nan := fun _ => rfl

/-- A result that is no NaN is allowed. -/
theorem onlyNan_of_ne {nan x : Word} (h : unpack x ≠ .nan) : OnlyNan nan x := fun hx => absurd hx h

/-- So are the results that are no NaN: infinities, zeros and rounded numbers. -/
@[simp] theorem onlyNan_infBits (nan : Word) (neg : Bool) : OnlyNan nan (infBits neg) := onlyNan_of_ne (by simp)

@[simp] theorem onlyNan_zeroBits (nan : Word) (neg : Bool) : OnlyNan nan (zeroBits neg) := onlyNan_of_ne (by simp)

@[simp] theorem onlyNan_roundBits (nan : Word) (neg : Bool) (n d : Nat) : OnlyNan nan (roundBits neg n d) :=
  onlyNan_of_ne (unpack_roundBits_ne_nan neg n d)

@[simp] theorem onlyNan_addFinite (nan : Word) (s t : Bool) (m n : Nat) : OnlyNan nan (addFinite s m t n) := by
  obtain ⟨neg, h, -⟩ := addFinite_eq s t m n
  rw [h]
  exact onlyNan_roundBits nan neg _ 1

/-- A choice between two allowed results is allowed. -/
@[simp] theorem onlyNan_ite {nan x y : Word} {c : Prop} [Decidable c] (hx : OnlyNan nan x) (hy : OnlyNan nan y) :
    OnlyNan nan (if c then x else y) := by
  split <;> assumption

/-! Each operation, by the classes of its operands. -/

theorem onlyNan_fmul (nan a b : Word) : OnlyNan nan (fmul nan a b) := by
  unfold fmul
  cases unpack a <;> cases unpack b <;> simp

theorem onlyNan_fadd (nan a b : Word) : OnlyNan nan (fadd nan a b) := by
  unfold fadd
  cases unpack a <;> cases unpack b <;> simp

theorem onlyNan_fsub (nan a b : Word) : OnlyNan nan (fsub nan a b) := by
  unfold fsub
  cases unpack a <;> cases unpack b <;> simp

theorem onlyNan_fdiv (nan a b : Word) : OnlyNan nan (fdiv nan a b) := by
  unfold fdiv
  cases unpack a <;> cases unpack b <;> simp

/-- Settles O43: infinities and rounded numbers are no NaNs, so a NaN result is the pattern given. -/
theorem producedNanPattern : Obligations.ProducedNanPattern :=
  ⟨nanBits_fields, fun nan a b =>
    ⟨onlyNan_fmul nan a b, onlyNan_fadd nan a b, onlyNan_fsub nan a b, onlyNan_fdiv nan a b⟩⟩

/-! ### The special cases (R91) -/

section
variable {a b : Word}

/-- A NaN operand makes every result the produced NaN. -/
theorem operations_of_nan (nan : Word) (h : unpack a = .nan ∨ unpack b = .nan) :
    fmul nan a b = nan ∧ fadd nan a b = nan ∧ fsub nan a b = nan ∧ fdiv nan a b = nan := by
  obtain ha | hb := h
  · simp [fmul, fadd, fsub, fdiv, ha]
  · simp only [fmul, fadd, fsub, fdiv, hb]
    cases unpack a <;> simp

/-- An infinity over an infinity. -/
theorem fdiv_infinite_infinite (nan : Word) {s t : Bool} (ha : unpack a = .infinite s) (hb : unpack b = .infinite t) :
    fdiv nan a b = nan := by
  simp only [fdiv, ha, hb]

/-- An infinity less an infinity of its sign. -/
theorem fsub_infinite_same (nan : Word) {s : Bool} (ha : unpack a = .infinite s) (hb : unpack b = .infinite s) :
    fsub nan a b = nan := by
  simp only [fsub, ha, hb, if_true]

/-- A zero times an infinity, in either order. -/
theorem fmul_zero_infinite (nan : Word) {s t : Bool} (ha : unpack a = .finite s 0) (hb : unpack b = .infinite t) :
    fmul nan a b = nan ∧ fmul nan b a = nan := by
  simp only [fmul, ha, hb, if_true, and_self]

/-- A finite number less itself is +0. -/
theorem fsub_self (nan : Word) {s : Bool} {n : Nat} (ha : unpack a = .finite s n) : fsub nan a a = 0#64 := by
  rw [fsub_finite nan ha ha, addFinite, signedMag_not, add_neg_cancel]
  cases s <;> decide

end

/-- The two infinities as patterns. -/
theorem infBits_eq (neg : Bool) : infBits neg = if neg then 0xFFF0000000000000#64 else 0x7FF0000000000000#64 := by
  cases neg <;> decide

/-- Settles O42: one lemma for each case of the rule. -/
theorem specialCases : Obligations.SpecialCases := by
  unfold Obligations.SpecialCases
  intro nan a b s t m n
  refine ⟨operations_of_nan nan, fun ha hm hb => ?_, fun ha hb => ?_, fdiv_infinite_infinite nan,
    fsub_infinite_same nan, fmul_zero_infinite nan, fsub_self nan⟩
  · rw [fdiv_zero nan ha hb, if_neg hm, infBits_eq]
  · rw [fdiv_zero nan ha hb, if_pos rfl]

/-! ### A factor of zero (R101) -/

/-- A finite number times a zero is a zero of the signs' exclusive-or. -/
theorem fmul_by_zero (nan : Word) {a b : Word} {s t : Bool} {m : Nat} (ha : unpack a = .finite s m)
    (hb : unpack b = .finite t 0) : fmul nan a b = zeroBits (s ^^ t) := by
  rw [fmul_finite nan ha hb, Nat.mul_zero, ← Nat.zero_mul unitOne]
  exact roundBits_mul_of_finite (unpack_zeroBits _)

/-- Scaling by a zero factor leaves the zero and the offset. -/
theorem toPhysical_zeroFactor (nan r o : Word) (neg : Bool) :
    toPhysical (ieee nan) r (zeroBits neg) o = fadd nan (zeroBits neg) o := by
  obtain ⟨m, hm⟩ := u2f_finite r
  rw [toPhysical_ieee, fmul_by_zero nan hm (unpack_zeroBits neg), Bool.false_xor]

/-- A zero plus a zero is negative only where both are. -/
theorem addFinite_zero_zero (s t : Bool) : addFinite s 0 t 0 = zeroBits (s && t) := by
  simp [addFinite, signedMag]

/-- A zero plus another number is the number rounded. -/
theorem addFinite_zero_left (s t : Bool) {m : Nat} (hm : m ≠ 0) : addFinite s 0 t m = roundBits t m 1 := by
  have hsum : signedMag s 0 + signedMag t m = signedMag t m := by simp [signedMag]
  rw [addFinite, hsum]
  cases t <;> simp [signedMag, hm, Nat.pos_of_ne_zero hm, not_lt.mpr (Int.natCast_nonneg m)]

/-- A zero plus a number is the number, but for +0 plus -0. -/
theorem fadd_zeroBits (nan : Word) (neg : Bool) {o : Word} (ho : unpack o ≠ .nan) :
    fadd nan (zeroBits neg) o = if o = zeroBits true ∧ zeroBits neg = zeroBits false then zeroBits false else o := by
  cases h : unpack o with
  | nan => exact absurd h ho
  | infinite t =>
    have hne : o ≠ zeroBits true := fun heq => by simp [heq] at h
    rw [if_neg fun hc => hne hc.1, eq_infBits h]
    simp [fadd]
  | finite t m =>
    rw [fadd_finite nan (unpack_zeroBits neg) h]
    by_cases hm : m = 0
    · subst hm
      rw [addFinite_zero_zero, eq_zeroBits h]
      cases neg <;> cases t <;> decide
    · have hne : o ≠ zeroBits true := by
        rintro rfl
        rw [unpack_zeroBits] at h
        cases h
        exact hm rfl
      rw [if_neg fun hc => hne hc.1, addFinite_zero_left _ _ hm, roundBits_of_finite h]

/-- A number over a zero is an infinity or a NaN. -/
theorem fdiv_zeroBits (nan x : Word) (neg : Bool) :
    fdiv nan x (zeroBits neg) = nan ∨ ∃ t, fdiv nan x (zeroBits neg) = infBits t := by
  unfold fdiv
  cases unpack x with
  | nan => simp
  | infinite s => simp
  | finite s m => by_cases hm : m = 0 <;> simp [hm]

/-- Settles O47: the product is a zero and the quotient an infinity or a NaN, which saturate or give 0. -/
theorem zeroFactor : Obligations.ZeroFactor := by
  unfold Obligations.ZeroFactor
  intro nan r p z o hnan hz
  have hnan' := (isNaN_iff nan).1 hnan
  obtain ⟨neg, rfl⟩ : ∃ neg, z = zeroBits neg := by
    obtain rfl | rfl := hz
    · exact ⟨false, rfl⟩
    · exact ⟨true, rfl⟩
  rw [toPhysical_zeroFactor, toRaw_ieee]
  refine ⟨rfl, fun ho => ?_, fun ho => ?_, ?_⟩
  · exact fadd_zeroBits nan neg fun h => by simp [(isNaN_iff o).2 h] at ho
  · exact (operations_of_nan nan (.inr ((isNaN_iff o).1 ho))).2.1
  · obtain hq | ⟨t, hq⟩ := fdiv_zeroBits nan (fsub nan p o) neg
    · rw [hq]
      exact ⟨.inr (f2u_nan hnan'), .inl hnan⟩
    · rw [hq, f2u_infinite (unpack_infBits t), infBits_eq]
      cases t <;> simp

end Sys2Proof.Machine
end

section
/-!
PROOFS. The commands TOPHYS and TORAW as a whole: what they write and what they leave (`41_converter.md` R97, R98).
-/

namespace Sys2Proof.Machine

/-- Settles O36: the effect of TOPHYS, over the decided operations. -/
theorem tophysEffect : Obligations.TophysEffect :=
  fun _ hf => exec_effect (i := .tophys) hf (by decide)

/-- Settles O37: the effect of TORAW, in which the pattern drawn is not visible. -/
theorem torawEffect : Obligations.TorawEffect := by
  unfold Obligations.TorawEffect
  intro s nan hf hnan
  have hraw := toRaw_nan_irrelevant (unpack_nanBits s.nanDraws) ((isNaN_iff nan).1 hnan) s.phys s.factor s.offset
  rw [exec_effect hf (by decide)]
  exact congrArg Host.Outcome.next (congrArg s.setRaw hraw)

/-- Settles O25: TOPHYS is discarded or takes its effect, which sets PHYS and spends a draw. -/
theorem frameOfTophys : Obligations.FrameOfTophys := by
  unfold Obligations.FrameOfTophys
  intro s t h
  obtain ⟨-, rfl⟩ | ⟨-, -, rfl⟩ | ⟨-, hw, -⟩ := exec_cases h
  · simp
  · simp [effect]
  · exact absurd rfl hw

end Sys2Proof.Machine
end

section
/-!
PROOFS. What a run of host transactions does, event by event (`20_memory.md` R38, `10_state.md` R18).
-/

namespace Sys2Proof.Machine

/-- A run of two lists goes on from the state the first leaves. -/
theorem performAll_append_of_next {es : List HostEvent} {s t : State} (h : performAll es s = .next t)
    (fs : List HostEvent) : performAll (es ++ fs) s = performAll fs t := by
  induction es generalizing s with
  | nil => cases h; rfl
  | cons e es ih =>
    cases he : performEvent e s with
    | next u =>
      rw [performAll_cons_of_next he] at h
      rw [List.cons_append, performAll_cons_of_next he, ih h]
    | fault r => cases r
    | refused r => simp [performAll, he] at h

/-- A write to any register but CMD stores and the run goes on. -/
theorem performAll_wr {r : Reg} (hr : r ≠ .cmd) (d : Word) (es : List HostEvent) (s : State) :
    performAll (.wr r d :: es) s = performAll es (s.writeReg r d) :=
  performAll_cons_of_next (performEvent_wr hr d s) es

/-- A read appends the register's value to the replies and the run goes on. -/
theorem performAll_rd (r : Reg) (es : List HostEvent) (s : State) :
    performAll (.rd r :: es) s = performAll es (s.pushReply (s.readReg r)) := rfl

/-- A command with a legal layout takes its effect and the run goes on. -/
theorem performAll_command {i : Instr} {s : State} (hf : s.fault = false) (hw : i.WellFormed)
    (es : List HostEvent) : performAll (commandEvent i :: es) s = performAll es (effect i s) :=
  performAll_cons_of_next ((performEvent_commandEvent i s).trans (exec_effect hf hw)) es

/-- The host collects the replies that the run appends. -/
theorem hostRun_of_next {es : List HostEvent} {s t : State} {rs : List Word} (h : performAll es s = .next t)
    (hr : t.replies = s.replies ++ rs) : hostRun es s = .ok (rs, t) := by
  simp [hostRun, h, hr]

end Sys2Proof.Machine
end

section
/-!
PROOFS. The check at load (`43_host_sequences.md` R114) and the layouts it lets through.
-/

namespace Sys2Proof.Machine

open Sys2Proof.Safety

/-- One signal passes exactly when its field lies in the window and its bounds are in order. -/
theorem checkSignal_eq_none_iff (sig : SignalLayout) :
    checkSignal sig = none ↔
      (sig.start ≤ 63 ∧ fieldFits sig.start sig.length) ∧ fle sig.minimum sig.maximum = true := by
  unfold checkSignal
  split_ifs with hwindow hbounds
  · simp [hwindow, hbounds]
  · simp [hbounds]
  · simp [hwindow]

/-- A load succeeds exactly when every signal of every message passes. -/
theorem loadLayouts_eq_ok_iff (ms : List MessageLayout) :
    loadLayouts ms = .ok ms ↔ ∀ m ∈ ms, ∀ sig ∈ m.signals, checkSignal sig = none := by
  have hnone : (ms.flatMap (·.signals)).findSome? checkSignal = none ↔
      ∀ m ∈ ms, ∀ sig ∈ m.signals, checkSignal sig = none := by
    simp only [List.findSome?_eq_none_iff, List.forall_mem_flatMap]
  rw [← hnone, loadLayouts]
  cases (ms.flatMap (·.signals)).findSome? checkSignal with
  | none => simp
  | some e => simp

/-- The word of a command is legal exactly when the command's layout is (`30_encoding.md` R53). -/
theorem legalWord_encode (i : Instr) : legalWord (encode i) = true ↔ i.WellFormed := by
  rw [legalWord, decode_encode, Instr.WellFormed]

/-- The commands of a layout that fits have a legal layout themselves. -/
theorem wellFormed_operandByte {start len : Nat} (h : fieldFits start len) (ord : ByteOrder) :
    (Instr.extract (operandByte start) (operandByte len) ord).WellFormed ∧
      (Instr.inject (operandByte start) (operandByte len) ord).WellFormed := by
  rw [wellFormed_extract, wellFormed_inject, operandByte_fits]
  exact ⟨h, h⟩

/-- Settles O52: the search at load finds no error exactly when each signal passes, and a field in the window gives
commands with a legal layout. -/
theorem loadCheck : Obligations.LoadCheck := by
  unfold Obligations.LoadCheck
  intro ms
  have hpass : loadLayouts ms = .ok ms ↔ ∀ m ∈ ms, ∀ sig ∈ m.signals,
      (sig.start ≤ 63 ∧ fieldFits sig.start sig.length) ∧ fle sig.minimum sig.maximum = true := by
    simp only [loadLayouts_eq_ok_iff, checkSignal_eq_none_iff]
  refine ⟨hpass, fun hload m hm sig hsig => ?_⟩
  obtain ⟨⟨-, hfits⟩, -⟩ := hpass.1 hload m hm sig hsig
  obtain ⟨hextract, hinject⟩ := wellFormed_operandByte hfits sig.order
  exact ⟨(legalWord_encode _).2 hextract, (legalWord_encode _).2 hinject⟩

end Sys2Proof.Machine
end

section
/-!
PROOFS. Encoding one signal (`43_host_sequences.md` R115), and the order in which signals are encoded (R117).
-/

namespace Sys2Proof.Machine

/-- The state before the INJECT of a signal: its scaling, physical value and raw value are in their registers. -/
def beforeInject (sig : SignalLayout) (p : Word) (s : State) : State :=
  (((s.setFactor sig.factor).setOffset sig.offset).setPhys p).setRaw (toRaw s.numerics p sig.factor sig.offset)

/-- The three writes and the TORAW of a signal lead to its INJECT. -/
theorem performAll_encodeSignal {s : State} (hf : s.fault = false) (sig : SignalLayout) (p : Word) :
    performAll (encodeSignal sig p) s =
      performAll [commandEvent (.inject (operandByte sig.start) (operandByte sig.length) sig.order)]
        (beforeInject sig p s) := by
  simp only [encodeSignal, expandLine, List.cons_append, List.nil_append]
  rw [performAll_wr (by decide), performAll_wr (by decide), performAll_wr (by decide),
    performAll_command (i := .toraw) (by exact hf) (by decide)]
  rfl

/-- What encoding a signal with a legal layout leaves. -/
def afterEncode (sig : SignalLayout) (p : Word) (s : State) : State :=
  (beforeInject sig p s).setBuf (serialize
    (assemble s.buf sig.order ||| fieldBits (toRaw s.numerics p sig.factor sig.offset) sig.start sig.length) sig.order)

/-- A signal with a legal layout is merged into the payload. -/
theorem performAll_encodeSignal_of_fits {s : State} (hf : s.fault = false) {sig : SignalLayout}
    (h : fieldFits sig.start sig.length) (p : Word) :
    performAll (encodeSignal sig p) s = .next (afterEncode sig p s) := by
  obtain ⟨hstart, hlen⟩ := operandByte_of_fits h
  rw [performAll_encodeSignal hf,
    performAll_command (s := beforeInject sig p s) hf (wellFormed_operandByte h sig.order).2, performAll, effect,
    hstart, hlen]
  rfl

/-- The INJECT of a signal that does not fit is refused with LayoutViolation (`60_exceptions.md` R142). -/
theorem performAll_encodeSignal_layoutViolation {s : State} (hf : s.fault = false) {sig : SignalLayout}
    (h : ¬ fieldFits sig.start sig.length) (p : Word) :
    performAll (encodeSignal sig p) s =
      .next (raiseFault .layoutViolation
        (encode (.inject (operandByte sig.start) (operandByte sig.length) sig.order)) (beforeInject sig p s)) := by
  have hw : ¬ (Instr.inject (operandByte sig.start) (operandByte sig.length) sig.order).WellFormed := by
    rwa [wellFormed_inject, operandByte_fits]
  have hinject := (performEvent_commandEvent _ _).trans (exec_layoutViolation (s := beforeInject sig p s) hf hw)
  rw [performAll_encodeSignal hf, performAll_cons_of_next hinject, performAll]

/-- Settles O54: the run to the INJECT, which merges the field or is refused. The model's function has the
obligation's own name. -/
theorem encodeSignal_spec : Obligations.EncodeSignal := by
  unfold Obligations.EncodeSignal
  exact fun sig p s hf => ⟨fun h => performAll_encodeSignal_of_fits hf h p,
    fun h => performAll_encodeSignal_layoutViolation hf h p⟩

/-- The bits that encoding a signal sets in the host's view of BUF. -/
def choiceBits (N : Config.Numerics) (c : SignalLayout × Word) : Word :=
  hostBits (toRaw N c.2 c.1.factor c.1.offset) c.1.start c.1.length c.1.order

/-- In the host's view encoding a signal is an OR into BUF. -/
theorem packBuf_afterEncode (c : SignalLayout × Word) (s : State) :
    packBuf (afterEncode c.1 c.2 s).buf = packBuf s.buf ||| choiceBits s.numerics c :=
  packBuf_serialize_or s.buf c.1.order _

/-- Encoding a list of signals with legal layouts ORs the bits of each into BUF. -/
theorem performAll_flatMap_encodeSignal {cs : List (SignalLayout × Word)} {s : State} (hf : s.fault = false)
    (h : ∀ c ∈ cs, fieldFits c.1.start c.1.length) :
    ∃ t, performAll (cs.flatMap fun c => encodeSignal c.1 c.2) s = .next t ∧ t.fault = false ∧
      packBuf t.buf = cs.foldl (fun w c => w ||| choiceBits s.numerics c) (packBuf s.buf) := by
  induction cs generalizing s with
  | nil => exact ⟨s, rfl, hf, rfl⟩
  | cons c cs ih =>
    obtain ⟨hc, hcs⟩ := List.forall_mem_cons.1 h
    obtain ⟨t, hrun, hfault, hbuf⟩ := ih (s := afterEncode c.1 c.2 s) hf hcs
    refine ⟨t, ?_, hfault, ?_⟩
    · rw [List.flatMap_cons, performAll_append_of_next (performAll_encodeSignal_of_fits hf hc c.2), hrun]
    · rw [hbuf, packBuf_afterEncode, List.foldl_cons]
      rfl

/-- The range-based build clears BUF and ORs the bits of each signal into it. -/
theorem performAll_buildPayload {cs : List (SignalLayout × Word)} {s : State} (hf : s.fault = false)
    (h : ∀ c ∈ cs, fieldFits c.1.start c.1.length) :
    ∃ t, performAll (buildPayload cs) s = .next t ∧ t.fault = false ∧
      packBuf t.buf = cs.foldl (fun w c => w ||| choiceBits s.numerics c) 0#64 := by
  obtain ⟨t, hrun, hfault, hbuf⟩ := performAll_flatMap_encodeSignal (s := s.setBuf (unpackBuf 0#64)) hf h
  refine ⟨t, ?_, hfault, ?_⟩
  · rw [buildPayload, expandLine, List.singleton_append, performAll_wr (by decide)]
    exact hrun
  · rwa [State.setBuf_buf, packBuf_unpackBuf] at hbuf

/-- ORs in a row commute, so their order does not matter. -/
theorem foldl_choiceBits_perm {cs cs' : List (SignalLayout × Word)} (h : cs.Perm cs') (N : Config.Numerics)
    (w : Word) :
    cs.foldl (fun w c => w ||| choiceBits N c) w = cs'.foldl (fun w c => w ||| choiceBits N c) w :=
  h.foldl_eq' (fun a _ b _ w => by rw [BitVec.or_assoc, BitVec.or_comm (choiceBits N a), ← BitVec.or_assoc]) w

/-- Settles O57: in the host's view both builds OR the same bits into an empty payload. -/
theorem signalOrderIrrelevant : Obligations.SignalOrderIrrelevant := by
  unfold Obligations.SignalOrderIrrelevant
  intro cs cs' s hperm hf hfits
  obtain ⟨t, hrun, hfault, hbuf⟩ := performAll_buildPayload hf hfits
  obtain ⟨t', hrun', hfault', hbuf'⟩ := performAll_buildPayload hf fun c hc => hfits c (hperm.mem_iff.2 hc)
  have hview : packBuf t.buf = packBuf t'.buf := by rw [hbuf, hbuf', foldl_choiceBits_perm hperm]
  have hpayload : t.buf = t'.buf := Function.LeftInverse.injective unpackBuf_packBuf hview
  exact ⟨t, t', hrun, hrun', hpayload, hfault, hfault'⟩

end Sys2Proof.Machine
end

section
/-!
PROOFS. The Frame Signal Decoder (`43_host_sequences.md` R112, R116, R123 to R125).
-/

namespace Sys2Proof.Machine

/-- Byte `i` given to the block is the frame's, or zero past its end. -/
theorem payloadByte_framePayload (p : List Byte) (i : Fin 8) : payloadByte (framePayload p) i = p.getD i.val 0#8 := by
  fin_cases i <;> rfl

/-- Settles O53: by whether the frame has a byte `i`. -/
theorem framePadding : Obligations.FramePadding := by
  unfold Obligations.FramePadding
  intro p i
  rw [payloadByte_framePayload]
  split_ifs with h
  · exact List.getD_eq_getElem p _ h
  · exact List.getD_eq_default p _ (Nat.le_of_not_lt h)

/-- The physical value of a signal in a payload, computed with draw `n` of NAN_BITS (`41_converter.md` R94). -/
def signalValue (p : Payload) (n : Nat) (sig : SignalLayout) : Word :=
  toPhysical (ieee (nanBits n)) (fieldOf (assemble p sig.order) sig.start sig.length) sig.factor sig.offset

/-- Decoding a signal with a legal layout replies with its physical value and spends one draw; BUF is kept. -/
theorem performAll_decodeSignal {s : State} (hf : s.fault = false) {sig : SignalLayout}
    (h : fieldFits sig.start sig.length) :
    ∃ t, performAll (decodeSignal sig) s = .next t ∧ t.buf = s.buf ∧ t.fault = false ∧
      t.nanDraws = s.nanDraws + 1 ∧ t.replies = s.replies ++ [signalValue s.buf s.nanDraws sig] := by
  obtain ⟨hstart, hlen⟩ := operandByte_of_fits h
  simp only [decodeSignal, expandLine, List.cons_append, List.nil_append]
  rw [performAll_wr (by decide), performAll_wr (by decide),
    performAll_command (by exact hf) (wellFormed_operandByte h sig.order).1,
    performAll_command (i := .tophys) (by exact hf) (by decide), performAll_rd, performAll]
  refine ⟨_, rfl, rfl, hf, rfl, ?_⟩
  simp only [effect, hstart, hlen]
  rfl

/-- Decoding a list of signals replies with the value of each in order, from the same payload. -/
theorem performAll_flatMap_decodeSignal {sigs : List SignalLayout} {s : State} (hf : s.fault = false)
    (h : ∀ sig ∈ sigs, fieldFits sig.start sig.length) :
    ∃ t, performAll (sigs.flatMap decodeSignal) s = .next t ∧ t.buf = s.buf ∧ t.fault = false ∧
      t.replies = s.replies ++ sigs.mapIdx fun j sig => signalValue s.buf (s.nanDraws + j) sig := by
  induction sigs generalizing s with
  | nil => exact ⟨s, rfl, rfl, hf, by simp⟩
  | cons sig sigs ih =>
    obtain ⟨hsig, hsigs⟩ := List.forall_mem_cons.1 h
    obtain ⟨u, hu, hubuf, hufault, hudraws, hureplies⟩ := performAll_decodeSignal hf hsig
    obtain ⟨t, ht, htbuf, htfault, htreplies⟩ := ih hufault hsigs
    refine ⟨t, ?_, htbuf.trans hubuf, htfault, ?_⟩
    · rw [List.flatMap_cons, performAll_append_of_next hu, ht]
    · simp [htreplies, hureplies, hubuf, hudraws, List.mapIdx_cons, Nat.add_assoc, Nat.add_comm 1]

/-- The transactions of a frame write its payload and then read each signal from it (R124). -/
theorem hostRun_decodeEvents (p : List Byte) {sigs : List SignalLayout} {s : State} (hf : s.fault = false)
    (h : ∀ sig ∈ sigs, fieldFits sig.start sig.length) :
    ∃ t, hostRun (decodeEvents p sigs) s =
        .ok (sigs.mapIdx fun j sig => signalValue (framePayload p) (s.nanDraws + j) sig, t) ∧
      t.buf = framePayload p ∧ t.fault = false := by
  have hwrite : s.writeReg .buf (packBuf (framePayload p)) = s.setBuf (framePayload p) :=
    congrArg s.setBuf (unpackBuf_packBuf _)
  obtain ⟨t, hrun, hbuf, hfault, hreplies⟩ :=
    performAll_flatMap_decodeSignal (s := s.setBuf (framePayload p)) hf h
  refine ⟨t, hostRun_of_next ?_ hreplies, hbuf, hfault⟩
  rw [decodeEvents, performAll_wr (by decide), hwrite, hrun]

/-- Pairing each signal's name with what is computed of the signal. -/
theorem zip_name_mapIdx (sigs : List SignalLayout) (f : Nat → SignalLayout → Word) :
    (sigs.map (·.name)).zip (sigs.mapIdx f) = sigs.mapIdx fun j sig => (sig.name, f j sig) :=
  List.ext_getElem (by simp) (by simp)

/-- A frame of a layout of at most 8 bytes is decoded by its transactions. -/
theorem decodeFrame_of_run {effFlagMask : BitVec 32} {ms : List MessageLayout} {m : MessageLayout} {f : Frame}
    {s t : State} {rs : List Word} (hm : lookupLayout effFlagMask ms f.id = some m) (hsize : m.size ≤ 8)
    (hrun : hostRun (decodeEvents f.payload m.signals) s = .ok (rs, t)) :
    decodeFrame effFlagMask ms f s = (.ok ((m.signals.map (·.name)).zip rs), t) := by
  simp [decodeFrame, hm, Nat.not_lt.2 hsize, hrun]

/-- Settles O55: the transactions of the frame reply with the signals' values, which are paired with their names. The
model's function has the obligation's own name. -/
theorem decodeFrame_spec : Obligations.DecodeFrame := by
  unfold Obligations.DecodeFrame
  intro effFlagMask ms m f s hm hsize hf hfits
  obtain ⟨t, hrun, hbuf, hfault⟩ := hostRun_decodeEvents f.payload hf hfits
  rw [decodeFrame_of_run hm hsize hrun, zip_name_mapIdx]
  exact ⟨rfl, hbuf, hfault⟩

/-- No layout is found exactly where none has the masked id (R123). -/
theorem lookupLayout_eq_none_iff (effFlagMask : BitVec 32) (ms : List MessageLayout) (id : BitVec 32) :
    lookupLayout effFlagMask ms id = none ↔ ∀ m ∈ ms, m.id &&& ~~~effFlagMask ≠ id &&& ~~~effFlagMask := by
  simp [lookupLayout, List.find?_eq_none]

/-- Settles O56: the two branches of the decoder that run no transaction. -/
theorem decodeErrors : Obligations.DecodeErrors := by
  unfold Obligations.DecodeErrors
  intro effFlagMask ms f s
  refine ⟨fun h => ?_, fun m hm hsize => ?_⟩
  · simp [decodeFrame, (lookupLayout_eq_none_iff effFlagMask ms f.id).2 h]
  · simp [decodeFrame, hm, hsize]

end Sys2Proof.Machine
end

section
/-!
PROOFS. The Signal Value Generator (`43_host_sequences.md` R113, R117 to R121).
-/

namespace Sys2Proof.Machine

/-! ### The chosen physical value -/

/-- A pattern that is comparable at all, being no NaN, is below itself. -/
theorem fle_refl_of_fle {a b : Word} (h : fle a b = true) : fle a a = true := by
  unfold fle at h ⊢
  cases ha : unpack a with
  | nan => simp [ha] at h
  | infinite s => simp
  | finite s m => simp

/-- A drawn value lies between bounds that are in order (R113). -/
theorem drawFloat_between {lo hi : Word} (h : fle lo hi = true) (r : Rand) (k : Nat) :
    fle lo (r.drawFloat k lo hi) = true ∧ fle (r.drawFloat k lo hi) hi = true := by
  unfold Rand.drawFloat
  split_ifs with hrange
  · exact Bool.and_eq_true_iff.1 hrange
  · exact ⟨fle_refl_of_fle h, h⟩

/-- So does the value chosen for a signal (R118). -/
theorem choosePhysical_between {sig : SignalLayout} (h : fle sig.minimum sig.maximum = true) (r : Rand) (k : Nat) :
    fle sig.minimum (choosePhysical r k sig) = true ∧ fle (choosePhysical r k sig) sig.maximum = true := by
  unfold choosePhysical
  split_ifs
  · exact ⟨fle_refl_of_fle h, h⟩
  · exact drawFloat_between h r k

/-- Settles O59: a constant or a draw within the bounds, and a message outside the rules is refused. -/
theorem rangeContainment : Obligations.RangeContainment := by
  unfold Obligations.RangeContainment
  refine ⟨fun r k sig h => ?_, fun r k cfg m s hcfg hsize hsig => ?_⟩
  · obtain ⟨hlow, hhigh⟩ := choosePhysical_between h r k
    exact ⟨hlow, hhigh, fun heq => if_pos heq⟩
  · exact generateMessage_refused ((outsideRules_iff cfg m).2 ⟨hcfg, hsize, hsig⟩) r k s

/-! ### A generated message -/

/-- What a message's plan yields once `p` is the payload in BUF: the flags take the draws after the plan's. -/
def generatedFrom (r : Rand) (cfg : GeneratorConfig) (m : MessageLayout) (plan : Plan) (p : Payload) : Generated where
  id := m.id
  payload := p
  remote := drawFlag r plan.nextDraw cfg.allowRemoteFrames
  error := drawFlag r (plan.nextDraw + flagDraws cfg.allowRemoteFrames) cfg.allowErrorFrames
  diagnostics := plan.diagnostics

/-- A message is generated by the transactions of its plan and one read of BUF, whose reply is the payload. -/
theorem generateMessage_of_run {r : Rand} {k : Nat} {cfg : GeneratorConfig} {m : MessageLayout} {s t : State}
    (hrules : outsideRules cfg m = false) (hrun : performAll (strategy r k cfg m).events s = .next t)
    (hreplies : t.replies = s.replies) :
    generateMessage r k cfg m s =
      .ok (generatedFrom r cfg m (strategy r k cfg m) t.buf, t.pushReply (packBuf t.buf)) := by
  have hread : hostRun ((strategy r k cfg m).events ++ [.rd .buf]) s =
      .ok ([packBuf t.buf], t.pushReply (packBuf t.buf)) := by
    refine hostRun_of_next ?_ (by simp [hreplies])
    rw [performAll_append_of_next hrun]
    rfl
  simp [generateMessage, generatedFrom, hrules, hread, unpackBuf_packBuf]

/-- The flag of a mode that is not enabled is not set (R121). -/
theorem drawFlag_disabled (r : Rand) (k : Nat) {enabled : Bool} (h : enabled = false) :
    drawFlag r k enabled = false := by
  rw [drawFlag, h, Bool.false_and]

/-- A plan that is one write of BUF runs to the state with that payload. -/
theorem performAll_wr_buf (d : Word) (s : State) :
    performAll [.wr .buf d] s = .next (s.setBuf (unpackBuf d)) := rfl

/-- The range-based strategy plans only to clear BUF for a message of more than 8 bytes (R119). -/
theorem strategy_of_oversize (r : Rand) (k : Nat) {cfg : GeneratorConfig} {m : MessageLayout}
    (hcfg : cfg.randomPayload = false) (hsize : 8 < m.size) :
    strategy r k cfg m = ⟨[.wr .buf 0#64], [.unsupportedMessageSize m.id], k⟩ := by
  simp [strategy, hcfg, rangeBased, hsize, expandLine]

/-- Settles O58: the plan is one write of a zero to BUF. -/
theorem oversizeMessage : Obligations.OversizeMessage := by
  unfold Obligations.OversizeMessage
  intro r k cfg m s hsize hcfg
  have hplan := strategy_of_oversize r k hcfg hsize
  have hrun : performAll (strategy r k cfg m).events s = .next (s.setBuf (unpackBuf 0#64)) := by
    rw [hplan, performAll_wr_buf]
  refine ⟨_, _, generateMessage_of_run (outsideRules_of_oversize cfg hsize) hrun rfl, rfl, ?_, ?_⟩
  · rw [hplan, generatedFrom]
  · rw [State.setBuf_buf, packBuf_unpackBuf]
    rfl

/-- The eight random bytes of the unconstrained strategy (R120). -/
def randomBytes (r : Rand) (k : Nat) : Payload :=
  ⟨randomByte r k, randomByte r (k + 1), randomByte r (k + 2), randomByte r (k + 3),
    randomByte r (k + 4), randomByte r (k + 5), randomByte r (k + 6), randomByte r (k + 7)⟩

/-- Byte `i` is the answer to draw `k + i`. -/
theorem payloadByte_randomBytes (r : Rand) (k : Nat) (i : Fin 8) :
    payloadByte (randomBytes r k) i = BitVec.ofNat 8 (r.drawInt (k + i.val) 256) := by
  fin_cases i <;> rfl

/-- The unconstrained strategy plans one write of eight random bytes (R120). -/
theorem strategy_of_random (r : Rand) (k : Nat) {cfg : GeneratorConfig} (m : MessageLayout)
    (hcfg : cfg.randomPayload = true) :
    strategy r k cfg m = ⟨[.wr .buf (packBuf (randomBytes r k))], [], k + 8⟩ :=
  if_pos hcfg

/-- Settles O60: the plan is one write of eight random bytes to BUF. -/
theorem unconstrainedPayload : Obligations.UnconstrainedPayload := by
  unfold Obligations.UnconstrainedPayload
  intro r k cfg m s hcfg
  have hplan := strategy_of_random r k m hcfg
  have hrun : performAll (strategy r k cfg m).events s = .next (s.setBuf (randomBytes r k)) := by
    rw [hplan, performAll_wr_buf, unpackBuf_packBuf]
  refine ⟨_, _, generateMessage_of_run (outsideRules_of_random m hcfg) hrun rfl, rfl, ?_,
    payloadByte_randomBytes r k, drawFlag_disabled r _, drawFlag_disabled r _, rfl⟩
  rw [hplan, generatedFrom]

end Sys2Proof.Machine
end

section
/-!
PROOFS. Taking a fault (`60_exceptions.md` R140 to R144): which words of a write to CMD record which cause, and that
entry writes the record alone.
-/

namespace Sys2Proof.Machine

/-- A step with a write to CMD at the port presents its data on the state with the write taken off. -/
theorem step_wr_cmd {s : State} {d : Word} {rest : List HostEvent} (h : s.port = .wr .cmd d :: rest) :
    step s = presentCommand d (s.setPort rest) :=
  step_event h

/-- A step with a write to another register than CMD at the port stores its data on the state with the write taken
off. -/
theorem step_wr {s : State} {r : Reg} {d : Word} {rest : List HostEvent} (hr : r ≠ .cmd)
    (hp : s.port = .wr r d :: rest) : step s = .next ((s.setPort rest).writeReg r d) :=
  (step_event hp).trans (performEvent_wr hr d _)

/-- A step that writes a word that is no command takes IllegalCommand. -/
theorem step_illegalCommand {s : State} {d : Word} {rest : List HostEvent} {why : Rejection}
    (hp : s.port = .wr .cmd d :: rest) (hf : s.fault = false) (hd : decode d = .error why) :
    step s = .next (raiseFault .illegalCommand d (s.setPort rest)) :=
  (step_wr_cmd hp).trans (presentCommand_illegalCommand hf hd)

/-- A step that writes a command with an illegal layout takes LayoutViolation. -/
theorem step_layoutViolation {s : State} {d : Word} {rest : List HostEvent} {i : Instr}
    (hp : s.port = .wr .cmd d :: rest) (hf : s.fault = false) (hd : decode d = .ok i) (hw : ¬ i.WellFormed) :
    step s = .next (raiseFault .layoutViolation d (s.setPort rest)) :=
  (step_wr_cmd hp).trans (presentCommand_layoutViolation hf hd hw)

/-- R141's four ways for a word to match no row of the opcode table. -/
def MatchesNoRow (d : Word) : Prop :=
  upperField d ≠ 0#32 ∨ ¬ (1 ≤ (opField d).toNat ∧ (opField d).toNat ≤ 4) ∨
    ((opField d = 1#8 ∨ opField d = 2#8) ∧ 1 < (ordField d).toNat) ∨
    ((opField d = 3#8 ∨ opField d = 4#8) ∧ d.extractLsb' 8 24 ≠ 0#24)

/-- Each of the four ways is one of the decoder's rejections. -/
theorem decode_of_matchesNoRow {d : Word} (h : MatchesNoRow d) : ∃ why, decode d = .error why := by
  by_cases hu : upperField d = 0#32
  · obtain hupper | hop | ⟨hF, ho⟩ | ⟨hZ, hz⟩ := h
    · exact absurd hu hupper
    · rw [operation_range] at hop
      exact ⟨_, decode_operation hu (by tauto) (by tauto)⟩
    · exact ⟨_, decode_byteOrder hu hF ho⟩
    · exact ⟨_, decode_operands hu hZ hz⟩
  · exact ⟨_, decode_upperHalf hu⟩

/-- Every other word selects the row of its operation byte. -/
theorem decode_of_not_matchesNoRow {d : Word} (h : ¬ MatchesNoRow d) : ∃ i, decode d = .ok i := by
  rw [MatchesNoRow, not_or, not_or, not_or, not_not, not_not, not_and, not_and, not_not] at h
  obtain ⟨hu, hop, hF, hZ⟩ := h
  obtain hop | hop | hop | hop := (operation_range _).1 hop
  · exact ⟨_, decode_extract hu hop (hF (.inl hop))⟩
  · exact ⟨_, decode_inject hu hop (hF (.inr hop))⟩
  · exact ⟨_, decode_tophys hu hop (hZ (.inl hop))⟩
  · exact ⟨_, decode_toraw hu hop (hZ (.inr hop))⟩

/-- Settles O3: a word that matches no row is rejected by the decoder, any other is executed. -/
theorem illegalCommandCondition : Obligations.IllegalCommandCondition := by
  unfold Obligations.IllegalCommandCondition
  intro s d rest hp hf
  split_ifs with h
  · obtain ⟨why, hd⟩ := decode_of_matchesNoRow h
    exact step_illegalCommand hp hf hd
  · obtain ⟨i, hd⟩ := decode_of_not_matchesNoRow h
    exact ⟨i, hd, stepRunsTheCommand s d rest i hp hd⟩

/-- Settles O13: both causes enter by `raiseFault`, which writes the record alone. -/
theorem faultEntry : Obligations.FaultEntry :=
  fun _ _ _ hp hf =>
    ⟨fun _ hd => step_illegalCommand hp hf hd, fun _ hd hw => step_layoutViolation hp hf hd hw⟩

/-- A field command whose layout fails R142's check is not well formed. -/
theorem not_wellFormed_of_layout {i : Instr} {start len : Byte} {ord : ByteOrder}
    (hi : i = .extract start len ord ∨ i = .inject start len ord)
    (h : len = 0#8 ∨ 64 < len.toNat ∨ 64 < start.toNat + len.toNat) : ¬ i.WellFormed := by
  have hfits := (not_fieldFits_iff start len).2 h
  obtain rfl | rfl := hi
  · exact mt (wellFormed_extract ..).1 hfits
  · exact mt (wellFormed_inject ..).1 hfits

/-- Settles O14: the command is executed, or its word is written, while its layout is illegal. -/
theorem layoutViolationTaken : Obligations.LayoutViolationTaken := by
  unfold Obligations.LayoutViolationTaken
  intro s start len ord i rest hi hf hlayout
  have hw := not_wellFormed_of_layout hi hlayout
  exact ⟨exec_layoutViolation hf hw, fun hp => step_layoutViolation hp hf (decode_encode i) hw⟩

end Sys2Proof.Machine
end

section
/-!
PROOFS. The life of the fault record (`60_exceptions.md` R146 to R148, R154): it is written only by a bad command
word, kept by every other event, and cleared by an acknowledgement or a reset.
-/

namespace Sys2Proof.Machine

/-- A host write keeps the record, unless it is a write to STATUS with bit 0 set, which clears it. -/
theorem writeReg_record_cases (s : State) (r : Reg) (d : Word) :
    ((s.writeReg r d).fault = s.fault ∧ (s.writeReg r d).cause = s.cause ∧ (s.writeReg r d).finfo = s.finfo) ∨
      (r = .status ∧ d.getLsbD 0 = true ∧ s.writeReg r d = clearFault s) := by
  cases r with
  | status =>
    obtain ⟨hbit, hw⟩ | ⟨-, hw⟩ := writeStatus_cases d s
    · exact .inr ⟨rfl, hbit, hw⟩
    · exact .inl (by simp [State.writeReg, hw])
  | _ => exact .inl ⟨rfl, rfl, rfl⟩

/-- With no fault recorded, executing a command records one exactly when its layout is illegal, and else keeps
CAUSE. -/
theorem exec_fault_iff {i : Instr} {s t : State} (hf : s.fault = false) (h : exec i s = .next t) :
    (t.fault = true ↔ ¬ i.WellFormed) ∧ (t.fault = false → t.cause = s.cause) := by
  obtain ⟨hs, -⟩ | ⟨-, hw, rfl⟩ | ⟨-, hw, rfl⟩ := exec_cases h
  · simp [hf] at hs
  · simp [hf, hw]
  · simp [raiseFault, hw]

/-- With no fault recorded, a word presented to CMD records one exactly when it is no command with a legal layout,
and else keeps CAUSE. -/
theorem presentCommand_fault_iff {d : Word} {s t : State} (hf : s.fault = false)
    (h : presentCommand d s = .next t) :
    (t.fault = true ↔ ∀ i, decode d = .ok i → ¬ i.WellFormed) ∧ (t.fault = false → t.cause = s.cause) := by
  cases hd : decode d with
  | ok i =>
    rw [presentCommand_of_decode hd] at h
    simpa using exec_fault_iff hf h
  | error why =>
    rw [presentCommand_illegalCommand hf hd] at h
    cases h
    simp [raiseFault]

/-- Settles O16: by the four kinds of event, only the word presented to CMD recording a fault. -/
theorem nothingElseFaults : Obligations.NothingElseFaults := by
  unfold Obligations.NothingElseFaults
  intro s t e rest hp hf h
  rw [step_event hp] at h
  obtain ⟨r, rfl, rfl⟩ | ⟨rfl, rfl⟩ | ⟨d, rfl, hc⟩ | ⟨r, d, rfl, hr, rfl⟩ := performEvent_cases h
  · simp [hf]
  · simp [State.reset]
  · obtain ⟨hfault, hcause⟩ := presentCommand_fault_iff (s := s.setPort rest) hf hc
    exact ⟨by simpa using hfault, fun ht => .inl (hcause ht)⟩
  · obtain ⟨hfault, hcause, -⟩ | ⟨-, -, hclear⟩ := writeReg_record_cases (s.setPort rest) r d
    · exact ⟨by rw [hfault]; simp [hf, hr], fun _ => .inl hcause⟩
    · rw [hclear]
      simp [clearFault, hr]

/-- Settles O15: a read changes no register, a word presented to CMD is discarded, and a host write keeps the record
unless it acknowledges. -/
theorem faultStays : Obligations.FaultStays := by
  unfold Obligations.FaultStays
  intro s t e rest hp hf hreset hstatus h
  rw [step_event hp] at h
  obtain ⟨r, -, rfl⟩ | ⟨he, -⟩ | ⟨d, -, hc⟩ | ⟨r, d, he, -, rfl⟩ := performEvent_cases h
  · exact ⟨hf, rfl, rfl⟩
  · exact absurd he hreset
  · rw [presentCommand_faulted (s := s.setPort rest) hf] at hc
    cases hc
    exact ⟨hf, rfl, rfl⟩
  · obtain ⟨hfault, hcause, hfinfo⟩ | ⟨rfl, hbit, -⟩ := writeReg_record_cases (s.setPort rest) r d
    · exact ⟨hfault.trans hf, hcause, hfinfo⟩
    · rw [hstatus d he] at hbit
      cases hbit

/-- A command with a legal layout leaves no fault recorded when none was. -/
theorem exec_keeps_unfaulted {i : Instr} {s : State} (hf : s.fault = false) (hw : i.WellFormed) :
    ∃ t, exec i s = .next t ∧ t.fault = false :=
  ⟨_, exec_effect hf hw, (effect_fault i s).trans hf⟩

/-- Settles O11: the write to STATUS is `writeStatus`, and after a clear the next command passes the gate. -/
theorem faultCleared : Obligations.FaultCleared := by
  unfold Obligations.FaultCleared
  intro s d rest hp
  have hstep : step s = .next (writeStatus d (s.setPort rest)) := step_wr (by decide) hp
  refine ⟨fun hbit => ⟨?_, ?_⟩, fun hbit => ?_⟩
  · rw [hstep, writeStatus_eq, if_pos hbit]
    rfl
  · rintro i rest' rfl
    exact ⟨stepRunsTheCommand _ _ rest' i rfl (decode_encode i), exec_keeps_unfaulted rfl⟩
  · rw [hstep, writeStatus_eq, if_neg (ne_true_of_eq_false hbit)]
    rfl

/-- Settles O12: the gate discards every word, and no other transaction looks at FAULT. -/
theorem discardedWhileFaulted : Obligations.DiscardedWhileFaulted := by
  unfold Obligations.DiscardedWhileFaulted
  intro s rest hf
  refine ⟨fun d hp => ?_, fun _ hp => step_rd hp, fun _ _ hr hp => step_wr hr hp⟩
  exact (step_wr_cmd hp).trans (presentCommand_faulted (s := s.setPort rest) hf d)

end Sys2Proof.Machine
end

section
/-!
PROOFS. Several blocks (`60_exceptions.md` R152).
-/

namespace Sys2Proof.Machine

/-- Everything an event at one of several blocks can do: nothing where there is no such block, else what it makes of
that block. -/
theorem performOn_cases {k : Nat} {e : HostEvent} {bs bs' : List State} (h : performOn k e bs = .next bs') :
    (bs[k]? = none ∧ bs' = bs) ∨
      ∃ s t, bs[k]? = some s ∧ performEvent e s = .next t ∧ bs' = bs.set k t := by
  unfold performOn at h
  cases hk : bs[k]? with
  | none =>
    rw [hk] at h
    cases h
    exact .inl ⟨rfl, rfl⟩
  | some s =>
    rw [hk] at h
    cases he : performEvent e s with
    | next t =>
      simp only [he] at h
      cases h
      exact .inr ⟨s, t, rfl, he, rfl⟩
    | fault r => cases r
    | refused r => simp [he] at h

/-- Settles O50: the event sets one element of the list, or none. -/
theorem blocksIndependent : Obligations.BlocksIndependent := by
  unfold Obligations.BlocksIndependent
  intro k e bs bs' h
  obtain ⟨hk, rfl⟩ | ⟨s, t, hk, he, rfl⟩ := performOn_cases h
  · simp [hk]
  · have hlt : k < bs.length := (List.getElem?_eq_some_iff.1 hk).1
    refine ⟨List.length_set, fun j hj => List.getElem?_set_ne hj.symm, fun u hu => ?_⟩
    obtain rfl : s = u := Option.some.inj (hk.symm.trans hu)
    exact ⟨t, he, List.getElem?_set_self hlt⟩

end Sys2Proof.Machine
end

section
/-!
PROOFS. Good runs (`70_reset_and_hazards.md` R165): a fault, once recorded, outlasts every event that does not
acknowledge it, so a run that ends with none had none at any point, and no command in it was discarded or refused.
-/

namespace Sys2Proof.Machine

open Sys2Proof.Safety

/-- A recorded fault outlasts an event that does not acknowledge it (R146, R147). -/
theorem performEvent_keeps_fault {e : HostEvent} {s t : State} (hf : s.fault = true) (he : acknowledges e = false)
    (h : performEvent e s = .next t) : t.fault = true := by
  obtain ⟨r, -, rfl⟩ | ⟨rfl, -⟩ | ⟨d, -, hc⟩ | ⟨r, d, rfl, -, rfl⟩ := performEvent_cases h
  · exact hf
  · cases he
  · rw [presentCommand_faulted hf] at hc
    cases hc
    exact hf
  · obtain ⟨hfault, -⟩ | ⟨rfl, hbit, -⟩ := writeReg_record_cases s r d
    · exact hfault.trans hf
    · exact absurd hbit (ne_true_of_eq_false he)

/-- A good run's first event acknowledges nothing and leaves the start of a good run of the rest. -/
theorem goodRun_cons {e : HostEvent} {es : List HostEvent} {s t : State} (h : GoodRun (e :: es) s t) :
    acknowledges e = false ∧ ∃ u, performEvent e s = .next u ∧ GoodRun es u t := by
  obtain ⟨hall, hrun, hfault⟩ := h
  rw [List.all_cons, Bool.and_eq_true, Bool.not_eq_true'] at hall
  obtain ⟨he, hes⟩ := hall
  cases hevent : performEvent e s with
  | next u =>
    rw [performAll_cons_of_next hevent] at hrun
    exact ⟨he, u, rfl, hes, hrun, hfault⟩
  | fault r => cases r
  | refused r => simp [performAll, hevent] at hrun

/-- The first part of a good run leaves the start of a good run of the rest. -/
theorem goodRun_append {es fs : List HostEvent} {s t : State} (h : GoodRun (es ++ fs) s t) :
    ∃ u, performAll es s = .next u ∧ GoodRun fs u t := by
  induction es generalizing s with
  | nil => exact ⟨s, rfl, h⟩
  | cons e es ih =>
    obtain ⟨-, v, hevent, hrest⟩ := goodRun_cons h
    obtain ⟨u, hes, hfs⟩ := ih hrest
    exact ⟨u, (performAll_cons_of_next hevent es).trans hes, hfs⟩

/-- A good run starts with no fault recorded. -/
theorem goodRun_starts_unfaulted {es : List HostEvent} {s t : State} (h : GoodRun es s t) : s.fault = false := by
  induction es generalizing s with
  | nil =>
    obtain ⟨-, hrun, hfault⟩ := h
    cases hrun
    exact hfault
  | cons e es ih =>
    obtain ⟨he, u, hevent, hrest⟩ := goodRun_cons h
    refine eq_false_of_ne_true fun hf => ?_
    exact absurd (performEvent_keeps_fault hf he hevent) (ne_true_of_eq_false (ih hrest))

/-- A word presented to CMD that leaves no fault recorded, none being recorded before, is a command with a legal
layout. -/
theorem legal_of_presentCommand_unfaulted {d : Word} {s t : State} (hs : s.fault = false) (ht : t.fault = false)
    (h : presentCommand d s = .next t) : ∃ i, decode d = .ok i ∧ i.WellFormed := by
  have hnot := mt (presentCommand_fault_iff hs h).1.2 (ne_true_of_eq_false ht)
  push Not at hnot
  exact hnot

/-- Settles O49: the run from each write to CMD and the run after it are good, so they start with no fault, and the
word written between them is a command with a legal layout. -/
theorem goodRunExecutesEveryCommand : Obligations.GoodRunExecutesEveryCommand := by
  unfold Obligations.GoodRunExecutesEveryCommand
  intro es s t h
  refine ⟨goodRun_starts_unfaulted h, ?_⟩
  rintro before after d rfl
  obtain ⟨u, hbefore, hcommand⟩ := goodRun_append h
  obtain ⟨-, v, hevent, hafter⟩ := goodRun_cons hcommand
  have hu := goodRun_starts_unfaulted hcommand
  have hv := goodRun_starts_unfaulted hafter
  obtain ⟨i, hd, hw⟩ := legal_of_presentCommand_unfaulted hu hv hevent
  have hexec : performEvent (.wr .cmd d) u = exec i u := presentCommand_of_decode hd u
  obtain ⟨-, hrun, -⟩ := hafter
  exact ⟨i, u, v, hbefore, hu, hd, hw, hexec, hexec.symm.trans hevent, hv, hrun⟩

end Sys2Proof.Machine
end
